-- ==== Sys2Proof/Word.lean ====
section
/-! DEFINITION. Byte, address and register widths of the VPERMQ machine (00_scope.md R5 to R7,
20_memory.md R40). A value is a bit vector of a stated width, bit 0 least significant (R6). -/

namespace Sys2Proof

/-- One byte of memory or of an instruction (R40). -/
abbrev Byte := BitVec 8

/-- A linear address; also the width of a general register and of `pc` (XLEN = 64, R5, D9, D10). -/
abbrev Addr := BitVec 64

/-- One element of a vector, a quadword (R6). -/
abbrev Qword := BitVec 64

/-- A vector register number, 0 to 31 (NVREG = 32, R20, D3). -/
abbrev VReg := BitVec 5

/-- An opmask register number, 0 to 7 (R22); 0 in a mask field means "no writemask" (R64). -/
abbrev KReg := BitVec 3

/-- A general register number, 0 to 15 (R24). -/
abbrev GReg := BitVec 4

end Sys2Proof
end

