-- ==== Sys2Proof/Syntax.lean ====
section
/-! DEFINITION. The decoded instruction: five forms of VPERMQ (30_encoding.md R60, R61, R69), one
constructor per row of spec/opcode_table.json. A memory operand keeps its addressing form (R66); the
linear address is computed when the instruction executes (log entry 13). -/

namespace Sys2Proof

/-- The vector length of a form (R71): VL = 256 or 512. -/
inductive VLen where
  | vl256
  | vl512
  deriving DecidableEq, Repr

/-- KL, the number of 64-bit elements: (KL, VL) = (4, 256), (8, 512) (R71). -/
@[reducible] def VLen.kl : VLen → Nat
  | .vl256 => 4
  | .vl512 => 8

/-- VL in bits, `64 * KL` (R71). -/
abbrev VLen.bits (vl : VLen) : Nat := 64 * vl.kl

/-- The five forms (R60), named as the opcode table's rows. -/
inductive Form where
  | vex256Imm
  | evex256Imm
  | evex512Imm
  | evex256Vec
  | evex512Vec
  deriving DecidableEq, Repr

/-- The vector length of each form (R60, R71). -/
@[reducible] def Form.vl : Form → VLen
  | .vex256Imm | .evex256Imm | .evex256Vec => .vl256
  | .evex512Imm | .evex512Vec => .vl512

/-- Whether the form ends in an immediate byte (R61, R62). -/
def Form.hasImm : Form → Bool
  | .vex256Imm | .evex256Imm | .evex512Imm => true
  | .evex256Vec | .evex512Vec => false

/-- Whether the form is VEX-encoded (R60). -/
def Form.isVex : Form → Bool
  | .vex256Imm => true
  | .evex256Imm | .evex512Imm | .evex256Vec | .evex512Vec => false

/-- A displacement: none, one byte or four bytes (R62, R66). -/
inductive Disp where
  | absent
  | disp8 (d : BitVec 8)
  | disp32 (d : BitVec 32)
  deriving DecidableEq, Repr

/-- A memory operand's addressing form (R66). -/
inductive MemRef where
  /-- `mod = 00, rm = 101`: relative to the address of the next instruction. -/
  | ripRel (disp : BitVec 32)
  /-- No SIB byte: one base register. -/
  | base (b : GReg) (disp : Disp)
  /-- SIB byte with a base register; index 0100 means "no index". -/
  | sib (scale : BitVec 2) (index : GReg) (b : GReg) (disp : Disp)
  /-- SIB byte, `mod = 00`, base field 101: no base register. -/
  | sibNoBase (scale : BitVec 2) (index : GReg) (disp : BitVec 32)
  deriving DecidableEq, Repr

/-- The ModRM:r/m operand: a vector register or a memory location (R61, R69). -/
inductive Src where
  | reg (n : VReg)
  | mem (m : MemRef)
  deriving DecidableEq, Repr

/-- A decoded VPERMQ (R69), one constructor per form (R60). `dst` is ModRM:reg, `idx` is EVEX.vvvv,
`src` is ModRM:r/m, `mask` is aaa (0: no writemask), `zeroing` is z, `bcst` is EVEX.b. -/
inductive Instr where
  | vpermqVex256Imm (dst : VReg) (src : Src) (imm8 : BitVec 8)
  | vpermqEvex256Imm (dst : VReg) (src : Src) (imm8 : BitVec 8) (mask : KReg) (zeroing bcst : Bool)
  | vpermqEvex512Imm (dst : VReg) (src : Src) (imm8 : BitVec 8) (mask : KReg) (zeroing bcst : Bool)
  | vpermqEvex256Vec (dst idx : VReg) (src : Src) (mask : KReg) (zeroing bcst : Bool)
  | vpermqEvex512Vec (dst idx : VReg) (src : Src) (mask : KReg) (zeroing bcst : Bool)
  deriving DecidableEq, Repr

/-- The form of an instruction (R69). -/
@[reducible] def Instr.form : Instr → Form
  | .vpermqVex256Imm .. => .vex256Imm
  | .vpermqEvex256Imm .. => .evex256Imm
  | .vpermqEvex512Imm .. => .evex512Imm
  | .vpermqEvex256Vec .. => .evex256Vec
  | .vpermqEvex512Vec .. => .evex512Vec

/-- Operand 1, the destination register, ModRM:reg (R61). -/
def Instr.dst : Instr → VReg
  | .vpermqVex256Imm dst _ _ => dst
  | .vpermqEvex256Imm dst _ _ _ _ _ => dst
  | .vpermqEvex512Imm dst _ _ _ _ _ => dst
  | .vpermqEvex256Vec dst _ _ _ _ _ => dst
  | .vpermqEvex512Vec dst _ _ _ _ _ => dst

/-- The ModRM:r/m operand (R61). -/
def Instr.src : Instr → Src
  | .vpermqVex256Imm _ src _ => src
  | .vpermqEvex256Imm _ src _ _ _ _ => src
  | .vpermqEvex512Imm _ src _ _ _ _ => src
  | .vpermqEvex256Vec _ _ src _ _ _ => src
  | .vpermqEvex512Vec _ _ src _ _ _ => src

/-- The writemask register number; the VEX form has none (R69). -/
def Instr.mask : Instr → KReg
  | .vpermqVex256Imm _ _ _ => 0
  | .vpermqEvex256Imm _ _ _ mask _ _ => mask
  | .vpermqEvex512Imm _ _ _ mask _ _ => mask
  | .vpermqEvex256Vec _ _ _ mask _ _ => mask
  | .vpermqEvex512Vec _ _ _ mask _ _ => mask

/-- Zeroing-masking; false for the VEX form (R69). -/
def Instr.zeroing : Instr → Bool
  | .vpermqVex256Imm _ _ _ => false
  | .vpermqEvex256Imm _ _ _ _ zeroing _ => zeroing
  | .vpermqEvex512Imm _ _ _ _ zeroing _ => zeroing
  | .vpermqEvex256Vec _ _ _ _ zeroing _ => zeroing
  | .vpermqEvex512Vec _ _ _ _ zeroing _ => zeroing

/-- Embedded broadcast; false for the VEX form (R69). -/
def Instr.bcst : Instr → Bool
  | .vpermqVex256Imm _ _ _ => false
  | .vpermqEvex256Imm _ _ _ _ _ bcst => bcst
  | .vpermqEvex512Imm _ _ _ _ _ bcst => bcst
  | .vpermqEvex256Vec _ _ _ _ _ bcst => bcst
  | .vpermqEvex512Vec _ _ _ _ _ bcst => bcst

end Sys2Proof
end

