-- ==== Sys2Proof/Config.lean ====
section
/-! DEFINITION. What a part fixes and no instruction changes: the parameters of 00_scope.md R5 and
10_state.md R26 (`Config = { MAXVL, NVREG, KW, HasAVX2, HasAVX512F, HasAVX512VL, Mode64, StateEnabled,
Readable }`). NVREG is fixed at 32 (D3). The record is plain data; State carries it unchanged, so a claim
over all states is a claim over all configurations (log entry 1). -/

namespace Sys2Proof

/-- The admitted values of MAXVL, the width of a vector register (R5, D2). -/
inductive MaxVL where
  | w256
  | w512
  deriving DecidableEq, Repr

/-- MAXVL in bits. -/
def MaxVL.bits : MaxVL → Nat
  | .w256 => 256
  | .w512 => 512

/-- The faults `Readable` may answer for a byte (20_memory.md R42, R49): PF(code), GP(0), SS(0). The spec
gives the page-fault code no width; it is a number the parameter supplies (log entry 4). -/
inductive MemFault where
  | pf (code : Nat)
  | gp0
  | ss0
  deriving DecidableEq, Repr

/-- A range of addresses, both ends included, whose bytes cannot be read, and the fault each gives. -/
structure NoRead where
  first : Addr
  last  : Addr
  fault : MemFault
  deriving DecidableEq, Repr

/-- The configuration (R5, R26). -/
structure Config where
  /-- MAXVL: 256 or 512 (D2). -/
  maxvl       : MaxVL
  /-- KW, the width of an opmask register: any value from 8 (D3 OPEN), at most 64 here (log entry 3). -/
  kw          : Nat
  /-- The CPUID flags of the opcode table (D4). -/
  hasAvx2     : Bool
  hasAvx512f  : Bool
  hasAvx512vl : Bool
  /-- The processor is in 64-bit mode (D7, R80). -/
  mode64      : Bool
  /-- CR4.OSXSAVE, XCR0 and CR0.TS allow the vector instructions (R26, R161 L2). -/
  stateEnabled : Bool
  /-- `Readable` (D16 OPEN): the ranges that fault, the first that holds an address deciding; an address in
  none of them is readable. Every function of R49's type has such a list (log entry 4). -/
  noRead      : List NoRead
  deriving DecidableEq, Repr

/-- The default configuration: MAXVL 512, all feature flags true (R5, D2, D4), 64-bit mode and vector
state enabled (R161 L1, L2). KW = 64 and `Readable` "ok" everywhere are the model's (log entries 3, 4). -/
def Config.default : Config where
  maxvl := .w512
  kw := 64
  hasAvx2 := true
  hasAvx512f := true
  hasAvx512vl := true
  mode64 := true
  stateEnabled := true
  noRead := []

end Sys2Proof
end

