-- ==== Sys2Proof/WellFormed.lean ====
section
/-! DEFINITION. Which records of R69 some byte sequence decodes to: register numbers in range for the
prefix (30_encoding.md R69), no broadcast from a register (R73 row 7), no zeroing without a writemask
(R73 row 8), and addressing forms whose bytes do not read as another form (R66). -/

namespace Sys2Proof

/-- `disp` is present, as `mod = 00` is taken for another meaning (R66). -/
def Disp.present : Disp → Bool
  | .absent => false
  | .disp8 _ => true
  | .disp32 _ => true

/-- R66: a base whose low three bits are 100 needs a SIB byte; low bits 101 need a displacement. -/
def MemRef.wellFormed : MemRef → Bool
  | .ripRel _ => true
  | .base b d => b.extractLsb' 0 3 != 0b100#3 && (b.extractLsb' 0 3 != 0b101#3 || d.present)
  | .sib _ _ b d => b.extractLsb' 0 3 != 0b101#3 || d.present
  | .sibNoBase _ _ _ => true

def Src.wellFormed : Src → Bool
  | .reg _ => true
  | .mem m => m.wellFormed

def Src.isMem : Src → Bool
  | .reg _ => false
  | .mem _ => true

/-- A VEX encoding names registers 0 to 15 only (R20, R69). -/
def VReg.vexNames (n : VReg) : Bool := n.extractLsb' 4 1 == 0#1

def Src.vexNames : Src → Bool
  | .reg n => VReg.vexNames n
  | .mem _ => true

/-- R73 rows 7 and 8, on the fields of an EVEX record. -/
def evexFieldsOk (src : Src) (mask : KReg) (zeroing bcst : Bool) : Bool :=
  src.wellFormed && (!bcst || src.isMem) && (!zeroing || mask != 0#3)

/-- The record is one a byte sequence decodes to. -/
def Instr.wellFormed : Instr → Bool
  | .vpermqVex256Imm dst src _ => VReg.vexNames dst && src.vexNames && src.wellFormed
  | .vpermqEvex256Imm _ src _ mask zeroing bcst => evexFieldsOk src mask zeroing bcst
  | .vpermqEvex512Imm _ src _ mask zeroing bcst => evexFieldsOk src mask zeroing bcst
  | .vpermqEvex256Vec _ _ src mask zeroing bcst => evexFieldsOk src mask zeroing bcst
  | .vpermqEvex512Vec _ _ src mask zeroing bcst => evexFieldsOk src mask zeroing bcst

end Sys2Proof
end

