-- ==== Sys2Proof/Decode.lean ====
section
/-! DEFINITION. Level B: bytes to records and back (30_encoding.md R62 to R75, R79, R81), and the feature
test (60_exceptions.md R142). Every bit position here is marked "from general knowledge, not in source" by
the spec (log entry 12). The decoder takes the bytes from `pc` upward, as many as could be fetched, and
looks at them in R81's order; `truncated` says that it needs a byte it was not given. -/

namespace Sys2Proof

/-- The feature test of a form (R142, D4). With MAXVL = 256 only the VEX form exists (D2, log entry 10). -/
def Config.supports (c : Config) : Form → Bool
  | .vex256Imm => c.hasAvx2
  | .evex256Imm | .evex256Vec => c.hasAvx512vl && c.hasAvx512f && c.maxvl == .w512
  | .evex512Imm | .evex512Vec => c.hasAvx512f && c.maxvl == .w512

/-- Why the decoder refuses a byte sequence. -/
inductive DecodeRefusal where
  /-- "not VPERMQ: outside the spec" (R75). -/
  | notVpermq
  /-- A segment-override or address-size byte comes first (R79). -/
  | unmodelledPrefix
  deriving DecidableEq, Repr

/-- The decoder's verdict on the bytes at `pc`. -/
inductive Decoded where
  /-- A VPERMQ, and the bytes after it. -/
  | instr (i : Instr) (rest : List Byte)
  /-- #UD (R72, R73). -/
  | ud
  | refuse (why : DecodeRefusal)
  /-- The next byte R81 reads was not given. -/
  | truncated
  deriving DecidableEq, Repr

/-! ### Displacements and the ModRM:r/m operand (R65, R66, R69, R74) -/

/-- A `disp8` is one byte. -/
def takeDisp8 : List Byte → Option (Disp × List Byte)
  | [] => none
  | b :: rest => some (.disp8 b, rest)

/-- Four bytes, least significant first (R66). -/
def take32 : List Byte → Option (BitVec 32 × List Byte)
  | b0 :: b1 :: b2 :: b3 :: rest => some (b3 ++ b2 ++ b1 ++ b0, rest)
  | _ => none

/-- The displacement `mod` calls for, where no base field is special (R66). -/
def takeDisp (md : BitVec 2) (bs : List Byte) : Option (Disp × List Byte) :=
  if md = 0b00#2 then some (.absent, bs)
  else if md = 0b01#2 then takeDisp8 bs
  else (take32 bs).map fun p => (.disp32 p.1, p.2)

/-- The SIB byte and the displacement after it (R66). `x` and `b` are the un-inverted X and B bits. -/
def takeSib (x b : BitVec 1) (md : BitVec 2) : List Byte → Option (MemRef × List Byte)
  | [] => none
  | sib :: bs =>
    let scale := sib.extractLsb' 6 2
    let index : GReg := x ++ sib.extractLsb' 3 3
    let base3 := sib.extractLsb' 0 3
    if md = 0b00#2 ∧ base3 = 0b101#3 then
      (take32 bs).map fun p => (.sibNoBase scale index p.1, p.2)
    else
      (takeDisp md bs).map fun p => (.sib scale index (b ++ base3) p.1, p.2)

/-- The ModRM:r/m operand (R65, R66, R69). `x4` is bit 4 of a register in r/m (0 under VEX, where X is
ignored; X under EVEX); `x` and `b` are the un-inverted X and B bits. -/
def takeSrc (x4 x b : BitVec 1) (modrm : Byte) (bs : List Byte) : Option (Src × List Byte) :=
  let md := modrm.extractLsb' 6 2
  let rm := modrm.extractLsb' 0 3
  if md = 0b11#2 then some (.reg (x4 ++ b ++ rm), bs)
  else if rm = 0b100#3 then (takeSib x b md bs).map fun p => (.mem p.1, p.2)
  else if md = 0b00#2 ∧ rm = 0b101#3 then (take32 bs).map fun p => (.mem (.ripRel p.1), p.2)
  else (takeDisp md bs).map fun p => (.mem (.base (b ++ rm) p.1), p.2)

/-! ### The VEX form (R63, R70, R81) -/

/-- Map 0F 3A, W = 1, pp = 01, opcode 00 (R70 row 1). -/
def vexMatches (b1 b2 op : Byte) : Bool :=
  b1.extractLsb' 0 5 == 0b00011#5 && b2.extractLsb' 7 1 == 1#1 && b2.extractLsb' 0 2 == 0b01#2 &&
    op == 0x00#8

/-- The bytes after C4 (R81). -/
def decodeVex (c : Config) : List Byte → Decoded
  | b1 :: b2 :: op :: bs =>
    if !vexMatches b1 b2 op then .refuse .notVpermq
    else if b2.extractLsb' 2 1 = 0#1 then .ud
    else if b2.extractLsb' 3 4 ≠ 0b1111#4 then .ud
    else match bs with
      | [] => .truncated
      | modrm :: bs =>
        if !c.supports .vex256Imm then .ud
        else match takeSrc 0#1 (~~~b1.extractLsb' 6 1) (~~~b1.extractLsb' 5 1) modrm bs with
          | some (src, imm8 :: rest) =>
            .instr (.vpermqVex256Imm (0#1 ++ ~~~b1.extractLsb' 7 1 ++ modrm.extractLsb' 3 3) src imm8) rest
          | some (_, []) => .truncated
          | none => .truncated
  | _ => .truncated

/-! ### The EVEX forms (R64, R70, R81) -/

/-- W = 1, pp = 01, map and opcode of the immediate forms (R70 rows 2, 3). -/
def evexImmMatches (p0 p1 op : Byte) : Bool :=
  p0.extractLsb' 0 2 == 0b11#2 && p1.extractLsb' 7 1 == 1#1 && p1.extractLsb' 0 2 == 0b01#2 &&
    op == 0x00#8

/-- W = 1, pp = 01, map and opcode of the vector-control forms (R70 rows 4, 5). -/
def evexVecMatches (p0 p1 op : Byte) : Bool :=
  p0.extractLsb' 0 2 == 0b10#2 && p1.extractLsb' 7 1 == 1#1 && p1.extractLsb' 0 2 == 0b01#2 &&
    op == 0x36#8

/-- The vector length of an EVEX length field; 00 is EVEX.128 and 11 is reserved (R64, R71). -/
def evexLength (p2 : Byte) : Option VLen :=
  if p2.extractLsb' 5 2 = 0b01#2 then some .vl256
  else if p2.extractLsb' 5 2 = 0b10#2 then some .vl512
  else none

/-- R72 row 4 and R73 row 9: in an immediate form the stored vvvv and V' are all ones. -/
def evexVvvvUnused (p1 p2 : Byte) : Bool :=
  p1.extractLsb' 3 4 == 0b1111#4 && p2.extractLsb' 3 1 == 1#1

/-- R73 row 8: z = 1 with aaa = 000. -/
def evexZeroingWithoutMask (p2 : Byte) : Bool :=
  p2.extractLsb' 7 1 == 1#1 && p2.extractLsb' 0 3 == 0b000#3

/-- The operand fields common to the EVEX forms (R64, R69). -/
def evexDst (p0 modrm : Byte) : VReg :=
  ~~~p0.extractLsb' 4 1 ++ ~~~p0.extractLsb' 7 1 ++ modrm.extractLsb' 3 3

def evexIdx (p1 p2 : Byte) : VReg := ~~~p2.extractLsb' 3 1 ++ ~~~p1.extractLsb' 3 4

def evexMask (p2 : Byte) : KReg := p2.extractLsb' 0 3

def evexZeroing (p2 : Byte) : Bool := p2.extractLsb' 7 1 == 1#1

def evexBcst (p2 : Byte) : Bool := p2.extractLsb' 4 1 == 1#1

/-- The immediate form of a length (R60 rows 2, 3). -/
def immFormOf : VLen → Form
  | .vl256 => .evex256Imm
  | .vl512 => .evex512Imm

/-- The vector-control form of a length (R60 rows 4, 5). -/
def vecFormOf : VLen → Form
  | .vl256 => .evex256Vec
  | .vl512 => .evex512Vec

/-- The form "by (immform, p2[6:5])" (R81). -/
def evexFormOf (imm : Bool) (vl : VLen) : Form := if imm then immFormOf vl else vecFormOf vl

/-- The record of an immediate form (R69). -/
def immInstrOf (vl : VLen) (dst : VReg) (src : Src) (imm8 : BitVec 8) (mask : KReg)
    (zeroing bcst : Bool) : Instr :=
  match vl with
  | .vl256 => .vpermqEvex256Imm dst src imm8 mask zeroing bcst
  | .vl512 => .vpermqEvex512Imm dst src imm8 mask zeroing bcst

/-- The record of a vector-control form (R69). -/
def vecInstrOf (vl : VLen) (dst idx : VReg) (src : Src) (mask : KReg) (zeroing bcst : Bool) : Instr :=
  match vl with
  | .vl256 => .vpermqEvex256Vec dst idx src mask zeroing bcst
  | .vl512 => .vpermqEvex512Vec dst idx src mask zeroing bcst

/-- The bytes from ModRM on, of an EVEX form whose head passed every test before it (R81). -/
def decodeEvexTail (c : Config) (imm : Bool) (vl : VLen) (p0 p1 p2 : Byte) : List Byte → Decoded
  | [] => .truncated
  | modrm :: bs =>
    if modrm.extractLsb' 6 2 = 0b11#2 ∧ evexBcst p2 = true then .ud
    else if !c.supports (evexFormOf imm vl) then .ud
    else match takeSrc (~~~p0.extractLsb' 6 1) (~~~p0.extractLsb' 6 1) (~~~p0.extractLsb' 5 1) modrm bs with
      | none => .truncated
      | some (src, bs) =>
        if imm then match bs with
          | [] => .truncated
          | imm8 :: rest =>
            .instr (immInstrOf vl (evexDst p0 modrm) src imm8 (evexMask p2) (evexZeroing p2) (evexBcst p2)) rest
        else
          .instr (vecInstrOf vl (evexDst p0 modrm) (evexIdx p1 p2) src (evexMask p2) (evexZeroing p2)
            (evexBcst p2)) bs

/-- The bytes after 62 (R81). -/
def decodeEvex (c : Config) : List Byte → Decoded
  | p0 :: p1 :: p2 :: op :: bs =>
    if p0.extractLsb' 2 2 ≠ 0b00#2 ∨ p1.extractLsb' 2 1 ≠ 1#1 then .ud
    else if !(evexImmMatches p0 p1 op || evexVecMatches p0 p1 op) then .refuse .notVpermq
    else match evexLength p2 with
      | none => .ud
      | some vl =>
        if evexImmMatches p0 p1 op && !evexVvvvUnused p1 p2 then .ud
        else if evexZeroingWithoutMask p2 then .ud
        else decodeEvexTail c (evexImmMatches p0 p1 op) vl p0 p1 p2 bs
  | _ => .truncated

/-! ### The decoder (R81) -/

/-- LOCK, 66, F2, F3 and REX (40 to 4F): #UD directly before a VEX or EVEX prefix (R73 row 10). -/
def isUdPrefix (b : Byte) : Bool :=
  b == 0xF0#8 || b == 0x66#8 || b == 0xF2#8 || b == 0xF3#8 || b.extractLsb' 4 4 == 0x4#4

/-- Segment overrides and the address-size byte (R79). -/
def isOverride (b : Byte) : Bool :=
  b == 0x26#8 || b == 0x2E#8 || b == 0x36#8 || b == 0x3E#8 || b == 0x64#8 || b == 0x65#8 || b == 0x67#8

/-- C4 marks a VEX prefix, 62 an EVEX prefix (R63, R64). -/
def isVectorEscape (b : Byte) : Bool := b == 0xC4#8 || b == 0x62#8

/-- The decoder of R81, total on any bytes. -/
def decode (c : Config) : List Byte → Decoded
  | [] => .truncated
  | b0 :: bs =>
    if isUdPrefix b0 then match bs with
      | [] => .truncated
      | b1 :: _ => if isVectorEscape b1 then .ud else .refuse .notVpermq
    else if isOverride b0 then .refuse .unmodelledPrefix
    else if b0 = 0xC4#8 then decodeVex c bs
    else if b0 = 0x62#8 then decodeEvex c bs
    else .refuse .notVpermq

/-! ### Length (R74) -/

/-- `Dsz` of a displacement. -/
def Disp.size : Disp → Nat
  | .absent => 0
  | .disp8 _ => 1
  | .disp32 _ => 4

/-- `S + Dsz` of R74: the SIB byte and the displacement. -/
def Src.extraSize : Src → Nat
  | .reg _ => 0
  | .mem (.ripRel _) => 4
  | .mem (.base _ d) => d.size
  | .mem (.sib _ _ _ d) => 1 + d.size
  | .mem (.sibNoBase _ _ _) => 5

/-- `len = P + 1 + 1 + S + Dsz + I` (R74). -/
def instrLength (f : Form) (src : Src) : Nat :=
  (if f.isVex then 3 else 4) + 1 + 1 + src.extraSize + (if f.hasImm then 1 else 0)

def Instr.length (i : Instr) : Nat := instrLength i.form i.src

/-- The longest instruction (R74): an EVEX immediate form with SIB and `disp32`. -/
def maxLength : Nat := 12

/-! ### The encoder (R62 to R70), from the same tables. A prefix bit that names nothing is stored 1, as
R63 and R64 show it "with no extension bit in use" (log entry 13). -/

/-- A 32-bit value, least significant byte first (R66). -/
def leBytes32 (d : BitVec 32) : List Byte :=
  [d.extractLsb' 0 8, d.extractLsb' 8 8, d.extractLsb' 16 8, d.extractLsb' 24 8]

def Disp.bytes : Disp → List Byte
  | .absent => []
  | .disp8 d => [d]
  | .disp32 d => leBytes32 d

/-- The `mod` that announces a displacement (R66). -/
def Disp.modBits : Disp → BitVec 2
  | .absent => 0b00#2
  | .disp8 _ => 0b01#2
  | .disp32 _ => 0b10#2

/-- ModRM, SIB and displacement of a source operand; `reg` is ModRM:reg (R65, R66). -/
def encodeSrc (reg : BitVec 3) : Src → List Byte
  | .reg n => [0b11#2 ++ reg ++ n.extractLsb' 0 3]
  | .mem (.ripRel d) => (0b00#2 ++ reg ++ 0b101#3) :: leBytes32 d
  | .mem (.base b d) => (d.modBits ++ reg ++ b.extractLsb' 0 3) :: d.bytes
  | .mem (.sib ss ix b d) =>
    (d.modBits ++ reg ++ 0b100#3) :: (ss ++ ix.extractLsb' 0 3 ++ b.extractLsb' 0 3) :: d.bytes
  | .mem (.sibNoBase ss ix d) =>
    (0b00#2 ++ reg ++ 0b100#3) :: (ss ++ ix.extractLsb' 0 3 ++ 0b101#3) :: leBytes32 d

/-- The un-inverted X bit: bit 4 of a register in r/m, or bit 3 of the SIB index (R64). -/
def Src.xBit : Src → BitVec 1
  | .reg n => n.extractLsb' 4 1
  | .mem (.ripRel _) => 0#1
  | .mem (.base _ _) => 0#1
  | .mem (.sib _ ix _ _) => ix.extractLsb' 3 1
  | .mem (.sibNoBase _ ix _) => ix.extractLsb' 3 1

/-- The un-inverted B bit: bit 3 of a register in r/m, or of the base register (R63, R64). -/
def Src.bBit : Src → BitVec 1
  | .reg n => n.extractLsb' 3 1
  | .mem (.ripRel _) => 0#1
  | .mem (.base b _) => b.extractLsb' 3 1
  | .mem (.sib _ _ b _) => b.extractLsb' 3 1
  | .mem (.sibNoBase _ _ _) => 0#1

def boolBit (b : Bool) : BitVec 1 := if b then 1#1 else 0#1

/-- The L'L field of a length (R64). -/
def VLen.llBits : VLen → BitVec 2
  | .vl256 => 0b01#2
  | .vl512 => 0b10#2

/-- The four EVEX prefix bytes (R64). `mm` is the opcode map, `vvvv5` the un-inverted V' and vvvv. -/
def evexHead (mm : BitVec 2) (vl : VLen) (dst vvvv5 : VReg) (src : Src) (mask : KReg)
    (zeroing bcst : Bool) : List Byte :=
  [0x62#8,
   ~~~dst.extractLsb' 3 1 ++ ~~~src.xBit ++ ~~~src.bBit ++ ~~~dst.extractLsb' 4 1 ++ 0b00#2 ++ mm,
   1#1 ++ ~~~vvvv5.extractLsb' 0 4 ++ 1#1 ++ 0b01#2,
   boolBit zeroing ++ vl.llBits ++ boolBit bcst ++ ~~~vvvv5.extractLsb' 4 1 ++ mask]

def encodeEvexImm (vl : VLen) (dst : VReg) (src : Src) (imm8 : BitVec 8) (mask : KReg)
    (zeroing bcst : Bool) : List Byte :=
  evexHead 0b11#2 vl dst 0#5 src mask zeroing bcst ++ 0x00#8 :: encodeSrc (dst.extractLsb' 0 3) src ++ [imm8]

def encodeEvexVec (vl : VLen) (dst idx : VReg) (src : Src) (mask : KReg) (zeroing bcst : Bool) : List Byte :=
  evexHead 0b10#2 vl dst idx src mask zeroing bcst ++ 0x36#8 :: encodeSrc (dst.extractLsb' 0 3) src

/-- The bytes of an instruction, the first at the lowest address (R62, R70). -/
def encode : Instr → List Byte
  | .vpermqVex256Imm dst src imm8 =>
    [0xC4#8, ~~~dst.extractLsb' 3 1 ++ ~~~src.xBit ++ ~~~src.bBit ++ 0b00011#5, 0xFD#8, 0x00#8] ++
      encodeSrc (dst.extractLsb' 0 3) src ++ [imm8]
  | .vpermqEvex256Imm dst src imm8 mask z b => encodeEvexImm .vl256 dst src imm8 mask z b
  | .vpermqEvex512Imm dst src imm8 mask z b => encodeEvexImm .vl512 dst src imm8 mask z b
  | .vpermqEvex256Vec dst idx src mask z b => encodeEvexVec .vl256 dst idx src mask z b
  | .vpermqEvex512Vec dst idx src mask z b => encodeEvexVec .vl512 dst idx src mask z b

/-! ### Words as spec/opcode_table.json numbers them -/

/-- The bytes of a table word. The table's constants take byte 0 of the instruction as the most
significant byte ("byte 0 being the most significant byte of the constant"), so a row's `nbits` bits are
its first `nbits / 8` bytes in that order; every later byte of the instruction is 0 (log entry 16). -/
def tableBytes (nbits w : Nat) : List Byte :=
  (List.range (nbits / 8)).map (fun k => BitVec.ofNat 8 (w / 2 ^ (8 * (nbits / 8 - 1 - k)))) ++
    List.replicate (maxLength - nbits / 8) 0#8

/-- What the decoder reads from a table word, under the default configuration. -/
def decodeTableWord (nbits w : Nat) : Option Instr :=
  match decode Config.default (tableBytes nbits w) with
  | .instr i _ => some i
  | .ud => none
  | .refuse _ => none
  | .truncated => none

end Sys2Proof
end

