-- ==== Sys2Proof/Machine/State.lean ====
section
/-! DEFINITION. The machine's state (10_state.md section 1, R20 to R29), the faults and refusals a step
may end in (60_exceptions.md R144, R146), and the state after reset. -/

namespace Sys2Proof.Machine

/-- Memory: `(address, byte)` pairs, addresses strictly rising, no byte equal to what an unlisted address
reads as (R27; log entry 7). -/
abbrev Memory := List Host.Cell

/-- The state record of 10_state.md: `V`, `K`, `x`, `pc`, `mem`; with the end address `p_end` of the launch
(R162) and the configuration, which no step changes (R26, log entry 1). -/
structure State where
  /-- `V[0..31]`: MAXVL bits each, in containers of 512 bits (R20, log entry 2). -/
  v    : Vector (BitVec 512) 32
  /-- `K[0..7]`: KW bits each, in containers of 64 bits (R22, log entry 3). -/
  k    : Vector (BitVec 64) 8
  /-- `x[0..15]`: RAX, RCX, RDX, RBX, RSP, RBP, RSI, RDI, r8 to r15 (R24). -/
  x    : Vector (BitVec 64) 16
  /-- The program counter, RIP (R23). -/
  pc   : Addr
  /-- Byte-addressed memory (R27). -/
  mem  : Memory
  /-- `p_end`, where the run is defined to end; absent when the launch gives none (R162, log entry 8). -/
  pEnd : Option Addr
  /-- The configuration (R26). -/
  cfg  : Config
  deriving DecidableEq, Repr

/-- Exceptions. Each is terminal and precise: the run ends in this outcome and no state has changed
(R146, R151, D11). Ending the run is safe: on the part a handler might resume the program. -/
inductive Fault where
  /-- #UD, raised by the decoder (R72, R73) and by a form whose feature flag is 0 (R142). `pc` is the
  faulting instruction. Safe. -/
  | ud (pc : Addr)
  /-- #PF(code): a byte of the instruction or of the memory operand at linear address `addr` is not
  readable (R42, R74, R141). Raised by fetch and by the data read. Safe. -/
  | pageFault (code : Nat) (addr pc : Addr)
  /-- #GP(0), as `pageFault` (R141). Safe. -/
  | generalProtection (addr pc : Addr)
  /-- #SS(0), as `pageFault` (R141). Safe. -/
  | stackFault (addr pc : Addr)
  deriving DecidableEq, Repr

/-- Where the model says nothing (R144). Every refusal is safe: nothing is claimed of the part. -/
inductive Refusal where
  /-- An instruction without a meaning yet; raised by `exec` only. No arm of this model uses it. Safe. -/
  | notModelled (mnemonic : String)
  /-- "not VPERMQ: outside the spec": the bytes match no pattern of R70; raised by `step` (R75). Safe. -/
  | notVpermq
  /-- A segment-override or address-size byte comes first; raised by `step` (R79, D17). Safe. -/
  | unmodelledPrefix
  /-- Not in 64-bit mode; raised by `step` (R80, R161 L1). Safe. -/
  | notMode64
  /-- The vector state is not enabled; raised by `step` and by every instruction (R26, R161 L2). Safe. -/
  | stateNotEnabled
  /-- `pc = p_end`: the run has ended and nothing is fetched; raised by `step` (R162). Safe. -/
  | runEnded
  deriving DecidableEq, Repr

/-- The launch state the model starts from. The spec gives no reset value (R29, R160): the registers and
memory are DESIGN CHOICE values (log entries 5 to 8), the configuration is R5's default with the launch
premises L1 to L3 of R161. -/
def State.reset : State where
  v := Vector.replicate 32 0#512
  k := Vector.replicate 8 0#64
  x := Vector.replicate 16 0#64
  pc := 0xFFFFFFF0#64
  mem := []
  pEnd := none
  cfg := Config.default

end Sys2Proof.Machine
end

