-- ==== Sys2Proof/Machine/Ops.lean ====
section
/-! DEFINITION. The named operations: elements of a vector (R6), memory (20_memory.md), registers
(10_state.md), raising an exception (60_exceptions.md), completing an instruction (40_vpermq_imm8.md R103,
R104). -/

namespace Sys2Proof.Machine

/-- How a step ends. -/
abbrev StepResult := Host.Outcome State Fault Refusal

/-! ### Elements -/

/-- `qword(v, n) = v[64*n+63 : 64*n]` (R6). -/
def qword {w : Nat} (v : BitVec w) (n : Nat) : Qword := v.extractLsb' (64 * n) 64

/-- The vector of `n` elements whose element `j` is `f j`. -/
def ofQwords (f : Nat → Qword) : (n : Nat) → BitVec (64 * n)
  | 0 => 0#0
  | n + 1 => ofQwords (fun j => f (j + 1)) n ++ f 0

/-! ### Memory bytes -/

/-- What an unlisted address reads as: DESIGN CHOICE, log entry 7. -/
def unlistedByte : Byte := 0#8

/-- The byte at an address. -/
def readCell : Memory → Nat → Byte
  | [], _ => unlistedByte
  | (k, b) :: m, a => if a = k then b else readCell m a

/-- Put a byte at an address, keeping the canonical form: writing what an unlisted address reads as
removes the entry. -/
def writeCell : Memory → Nat → Byte → Memory
  | [], a, b => if b = unlistedByte then [] else [(a, b)]
  | (k, c) :: m, a, b =>
    if a < k then (if b = unlistedByte then (k, c) :: m else (a, b) :: (k, c) :: m)
    else if a = k then (if b = unlistedByte then m else (a, b) :: m)
    else (k, c) :: writeCell m a b

/-- The canonical form from address `lo` up: addresses strictly rising and below `2^64`, no listed byte
equal to `unlistedByte`. -/
def wfFrom : Nat → Memory → Bool
  | _, [] => true
  | lo, (a, b) :: m => decide (lo ≤ a) && decide (a < 2 ^ 64) && b != unlistedByte && wfFrom (a + 1) m

/-- The canonical form of a memory. -/
def Memory.wf (m : Memory) : Bool := wfFrom 0 m

/-- `mem[a]` (R27). -/
def readByte (m : Memory) (a : Addr) : Byte := readCell m a.toNat

def writeByte (m : Memory) (a : Addr) (b : Byte) : Memory := writeCell m a.toNat b

/-- `n` bytes from `a` up, addresses modulo `2^64`, assembled little-endian: bits `[8k+7:8k]` are the byte
at `a + k` (R41, R42). -/
def readBytes (m : Memory) (a : Addr) : (n : Nat) → BitVec (8 * n)
  | 0 => 0#0
  | n + 1 => readBytes m (a + 1#64) n ++ readByte m a

/-- Put a list of bytes in memory from `a` up. -/
def writeList (m : Memory) (a : Addr) : List Byte → Memory
  | [] => m
  | b :: bs => writeList (writeByte m a b) (a + 1#64) bs

/-- `MemWrite(addr, n, v)`, little-endian (R7). No instruction in scope uses it (R47). -/
def memWrite (m : Memory) (a : Addr) : (n : Nat) → BitVec (8 * n) → Memory
  | 0, _ => m
  | n + 1, v => memWrite (writeByte m a (v.extractLsb' 0 8)) (a + 1#64) n (v.extractLsb' 8 (8 * n))

/-! ### `Readable` and `MemRead` (R42, R49) -/

/-- Whether a range of the configuration holds an address. -/
def NoRead.covers (r : NoRead) (a : Addr) : Bool := decide (r.first ≤ a) && decide (a ≤ r.last)

/-- `Readable(a)`: none is "ok", otherwise the fault (R49, D16). -/
def readable (c : Config) (a : Addr) : Option MemFault :=
  (c.noRead.find? fun r => NoRead.covers r a).map NoRead.fault

/-- The addresses `a, a+1, .. a+n-1` modulo `2^64`. -/
def addrRange (a : Addr) (n : Nat) : List Addr := (List.range n).map fun k => a + BitVec.ofNat 64 k

/-- The lowest-addressed unreadable byte among some addresses, and its fault (R42, log entry 11). -/
def lowestUnreadable (c : Config) : List Addr → Option (Addr × MemFault)
  | [] => none
  | a :: as =>
    match readable c a, lowestUnreadable c as with
    | none, r => r
    | some f, none => some (a, f)
    | some f, some (b, g) => if a ≤ b then some (a, f) else some (b, g)

/-- What an instruction may raise (R7). -/
inductive Exc where
  | ud
  | memory (kind : MemFault) (addr : Addr)
  deriving DecidableEq, Repr

/-- `MemRead(addr, n)` (R42): the bytes, or the fault of the lowest-addressed unreadable one. -/
def memRead (s : State) (a : Addr) (n : Nat) : Except Exc (BitVec (8 * n)) :=
  match lowestUnreadable s.cfg (addrRange a n) with
  | some (b, f) => .error (.memory f b)
  | none => .ok (readBytes s.mem a n)

/-! ### Registers -/

/-- `V[n]` (R20). -/
def readV (s : State) (n : VReg) : BitVec 512 := s.v[n.toNat]'n.isLt

/-- `V[n] <- v` (R20). -/
def writeV (s : State) (n : VReg) (v : BitVec 512) : State := { s with v := s.v.set n.toNat v n.isLt }

/-- `K[n]` (R22). -/
def readK (s : State) (n : KReg) : BitVec 64 := s.k[n.toNat]'n.isLt

/-- `x[i]` (R24). -/
def readX (s : State) (i : GReg) : Addr := s.x[i.toNat]'i.isLt

/-- `x[i] <- v` (R7). No instruction in scope uses it (R24; log entry 21). -/
def writeX (s : State) (i : GReg) (v : Addr) : State := { s with x := s.x.set i.toNat v i.isLt }

/-- `V[n][VL-1:0]`: `ymm n` or `zmm n` (R21). -/
def readVL (vl : VLen) (s : State) (n : VReg) : BitVec vl.bits := (readV s n).extractLsb' 0 vl.bits

/-- `WriteDest`: `V[dst] <- zext_MAXVL(r)`; bits from VL up become zero (R103). -/
def writeDest {vl : VLen} (s : State) (dst : VReg) (r : BitVec vl.bits) : State :=
  writeV s dst (r.setWidth 512)

/-- `pc <- t` (R7). -/
def setPc (s : State) (t : Addr) : State := { s with pc := t }

/-- `pc <- pc + len` modulo `2^64` (R23). -/
def advancePc (s : State) (len : Nat) : State := setPc s (s.pc + BitVec.ofNat 64 len)

/-! ### Exceptions (R146, R151): the one operation that takes one. The model enters no handler: the run ends
in a fault that names the exception, the `pc` of the faulting instruction and, for a memory fault, the linear
address. There is no return (R147). -/

def takeException (e : Exc) (s : State) : StepResult :=
  match e with
  | .ud => .fault (.ud s.pc)
  | .memory (.pf code) a => .fault (.pageFault code a s.pc)
  | .memory .gp0 a => .fault (.generalProtection a s.pc)
  | .memory .ss0 a => .fault (.stackFault a s.pc)

/-- The `pc` a fault names: that of the faulting instruction (R146). -/
def Fault.pc : Fault → Addr
  | .ud pc => pc
  | .pageFault _ _ pc => pc
  | .generalProtection _ pc => pc
  | .stackFault _ pc => pc

/-- The vector number of the exception (R141, R142; from general knowledge, log entry 12). -/
def Fault.vector : Fault → Nat
  | .ud _ => 6
  | .stackFault _ _ => 12
  | .generalProtection _ _ => 13
  | .pageFault _ _ _ => 14

/-- The error code: none for #UD, 0 for #SS and #GP, the fault code for #PF (R140, R141). -/
def Fault.errorCode : Fault → Option Nat
  | .ud _ => none
  | .stackFault _ _ => some 0
  | .generalProtection _ _ => some 0
  | .pageFault code _ _ => some code

/-- The faulting linear address of a memory fault (R146); #UD records none (R140). -/
def Fault.address : Fault → Option Addr
  | .ud _ => none
  | .stackFault a _ => some a
  | .generalProtection a _ => some a
  | .pageFault _ a _ => some a

/-- Run `body` if the form may execute: the vector state is enabled, else the model refuses (R26); the
form's feature flags are set, else #UD (R142). -/
def withForm (f : Form) (s : State) (body : StepResult) : StepResult :=
  if !s.cfg.stateEnabled then .refused .stateNotEnabled
  else if !s.cfg.supports f then takeException .ud s
  else body

/-- Step 4 and 5 of R104: write the destination, then advance the pc. -/
def retire {vl : VLen} (s : State) (dst : VReg) (r : BitVec vl.bits) (len : Nat) : StepResult :=
  .next (advancePc (writeDest s dst r) len)

end Sys2Proof.Machine
end

