-- ==== Sys2Proof/Machine/Flags.lean ====
section
/-! DEFINITION. No form computes a status flag and the model carries no flags (10_state.md R25). The only
predicate state is the opmask file, which is read here: `ApplyMask` (40_vpermq_imm8.md R102). -/

namespace Sys2Proof.Machine

/-- Whether destination element `j` is written: `*no writemask*` or `k1[j]` (R102). -/
def elementEnabled (s : State) (mask : KReg) (j : Nat) : Bool := mask == 0#3 || (readK s mask).getLsbD j

/-- `ApplyMask` (R102): mask bit `j` governs destination element `j`; a masked-off element keeps the old
value under merging and becomes 0 under zeroing. -/
def applyMask {vl : VLen} (s : State) (mask : KReg) (zeroing : Bool) (old tmp : BitVec vl.bits) :
    BitVec vl.bits :=
  ofQwords (fun j =>
    if elementEnabled s mask j then qword tmp j else if zeroing then 0#64 else qword old j) vl.kl

end Sys2Proof.Machine
end

