-- ==== Sys2Proof/Machine/Operands.lean ====
section
/-! DEFINITION. The ModRM:r/m operand: effective address (30_encoding.md R66, R67) and `FetchSrc`
(40_vpermq_imm8.md R101). -/

namespace Sys2Proof.Machine

/-- `N` of R67, the scale of a one-byte displacement: 1 under VEX, VL/8 for a full vector, 8 with
broadcast. -/
def dispScale (f : Form) (bcst : Bool) : Nat :=
  if f.isVex then 1 else if bcst then 8 else f.vl.bits / 8

/-- The displacement as it enters the address: sign-extended, and scaled by `n` if one byte (R66). -/
def dispValue (n : Nat) : Disp → Addr
  | .absent => 0#64
  | .disp8 d => d.signExtend 64 * BitVec.ofNat 64 n
  | .disp32 d => d.signExtend 64

/-- `idxval` of R66: 0 if the index is 0100, else the register shifted by the scale. -/
def indexValue (s : State) (scale : BitVec 2) (index : GReg) : Addr :=
  if index = 0b0100#4 then 0#64 else readX s index <<< scale.toNat

/-- The linear address of a memory operand (R66); `next` is the address of the following instruction and
`n` the displacement scale. Sums are modulo `2^64`. -/
def effectiveAddress (s : State) (n : Nat) (next : Addr) : MemRef → Addr
  | .ripRel d => next + d.signExtend 64
  | .base b d => readX s b + dispValue n d
  | .sib ss ix b d => readX s b + indexValue s ss ix + dispValue n d
  | .sibNoBase ss ix d => indexValue s ss ix + d.signExtend 64

/-- The address of an instruction's memory operand: `next = pc + len` (R66), `N` by R67. -/
def operandAddress (f : Form) (bcst : Bool) (s : State) (m : MemRef) : Addr :=
  effectiveAddress s (dispScale f bcst) (s.pc + BitVec.ofNat 64 (instrLength f (.mem m))) m

/-- The bytes a memory operand reads: 8 with broadcast, else VL/8, whatever the writemask (R44, R45). -/
def operandSize (f : Form) (bcst : Bool) : Nat := if bcst then 8 else 8 * f.vl.kl

/-- `FetchSrc` (R101): the low VL bits of a register; a memory operand read in full; or with broadcast the
8 bytes read, in every element. -/
def fetchSrc (f : Form) (src : Src) (bcst : Bool) (s : State) : Except Exc (BitVec f.vl.bits) :=
  match src with
  | .reg n => .ok (readVL f.vl s n)
  | .mem m =>
    if bcst then
      (memRead s (operandAddress f true s m) 8).map fun q => ofQwords (fun _ => q) f.vl.kl
    else
      (memRead s (operandAddress f false s m) (8 * f.vl.kl)).map fun t => t.setWidth f.vl.bits

end Sys2Proof.Machine
end

