-- ==== Sys2Proof/Machine/Permute.lean ====
section
/-! DEFINITION. The permutations (40_vpermq_imm8.md R100, R105; 41_vpermq_vector.md R120) and the order of
one execution (R104), shared by the five forms. -/

namespace Sys2Proof.Machine

/-- `SelectQ(X, s) = (X >> (s * 64))[63:0]` (R100). -/
def selectQ {w : Nat} (x : BitVec w) (sel : Nat) : Qword := (x >>> (sel * 64)).extractLsb' 0 64

/-- The 2-bit selector of element `j` in the immediate, `imm8[2*j+1 : 2*j]` (R68). -/
def immSelector (imm8 : BitVec 8) (j : Nat) : Nat := (imm8.extractLsb' (2 * j) 2).toNat

/-- `PermImm` (R105): element `j` of each 256-bit half is selected from that half by field `j` of the
immediate. -/
def permImm {vl : VLen} (imm8 : BitVec 8) (t : BitVec vl.bits) : BitVec vl.bits :=
  ofQwords (fun i => selectQ (t.extractLsb' (256 * (i / 4)) 256) (immSelector imm8 (i % 4))) vl.kl

/-- `nb`, the index bits read from each element: 2 at VL = 256, 3 at VL = 512 (R120, C4). -/
def indexBits : VLen → Nat
  | .vl256 => 2
  | .vl512 => 3

/-- The selector of element `j` in an index vector, its low `nb` bits (R120). -/
def vecSelector (vl : VLen) (x : BitVec vl.bits) (j : Nat) : Nat :=
  (x.extractLsb' (64 * j) (indexBits vl)).toNat

/-- `PermVec` (R120): element `j` is selected from the whole data vector. -/
def permVec {vl : VLen} (x t : BitVec vl.bits) : BitVec vl.bits :=
  ofQwords (fun j => selectQ t (vecSelector vl x j)) vl.kl

/-- What follows the operand fetch (R104 steps 2 to 5): an exception of the fetch comes before any write (R151); else
the old destination and the mask are read from the same state, and the masked permutation is written. -/
def permuteFetched (f : Form) (dst : VReg) (src : Src) (mask : KReg) (zeroing : Bool)
    (perm : BitVec f.vl.bits → BitVec f.vl.bits) (s : State) : Except Exc (BitVec f.vl.bits) → StepResult
  | .error e => takeException e s
  | .ok t => retire s dst (applyMask s mask zeroing (readVL f.vl s dst) (perm t)) (instrLength f src)

/-- One execution (R104): the form may run, the source is fetched, `perm` permutes it under the mask. -/
def permuteInto (f : Form) (dst : VReg) (src : Src) (mask : KReg) (zeroing bcst : Bool)
    (perm : BitVec f.vl.bits → BitVec f.vl.bits) (s : State) : StepResult :=
  withForm f s (permuteFetched f dst src mask zeroing perm s (fetchSrc f src bcst s))

end Sys2Proof.Machine
end

