-- ==== Sys2Proof/Machine/VpermqImm.lean ====
section
/-! DEFINITION. The three immediate-control forms (40_vpermq_imm8.md R106 to R108). -/

namespace Sys2Proof.Machine

/-- `VPERMQ ymm1, ymm2/m256, imm8` (R106): no writemask, no broadcast. -/
def execVpermqVex256Imm (dst : VReg) (src : Src) (imm8 : BitVec 8) (s : State) : StepResult :=
  permuteInto .vex256Imm dst src 0#3 false false (permImm imm8) s

/-- `VPERMQ ymm1 {k1}{z}, ymm2/m256/m64bcst, imm8` (R107). -/
def execVpermqEvex256Imm (dst : VReg) (src : Src) (imm8 : BitVec 8) (mask : KReg) (zeroing bcst : Bool)
    (s : State) : StepResult :=
  permuteInto .evex256Imm dst src mask zeroing bcst (permImm imm8) s

/-- `VPERMQ zmm1 {k1}{z}, zmm2/m512/m64bcst, imm8` (R108). -/
def execVpermqEvex512Imm (dst : VReg) (src : Src) (imm8 : BitVec 8) (mask : KReg) (zeroing bcst : Bool)
    (s : State) : StepResult :=
  permuteInto .evex512Imm dst src mask zeroing bcst (permImm imm8) s

end Sys2Proof.Machine
end

