-- ==== Sys2Proof/Machine/VpermqVector.lean ====
section
/-! DEFINITION. The two vector-control forms (41_vpermq_vector.md R121, R122). -/

namespace Sys2Proof.Machine

/-- `VPERMQ ymm1 {k1}{z}, ymm2, ymm3/m256/m64bcst` (R121). -/
def execVpermqEvex256Vec (dst idx : VReg) (src : Src) (mask : KReg) (zeroing bcst : Bool) (s : State) :
    StepResult :=
  permuteInto .evex256Vec dst src mask zeroing bcst (permVec (readVL .vl256 s idx)) s

/-- `VPERMQ zmm1 {k1}{z}, zmm2, zmm3/m512/m64bcst` (R122). -/
def execVpermqEvex512Vec (dst idx : VReg) (src : Src) (mask : KReg) (zeroing bcst : Bool) (s : State) :
    StepResult :=
  permuteInto .evex512Vec dst src mask zeroing bcst (permVec (readVL .vl512 s idx)) s

end Sys2Proof.Machine
end

