-- ==== Sys2Proof/Machine/Dispatch.lean ====
section
/-! DEFINITION. One arm per constructor of Instr, each one direct call of its meaning. -/

namespace Sys2Proof.Machine

def exec (i : Instr) (s : State) : Host.Outcome State Fault Refusal :=
  match i with
  | .vpermqVex256Imm dst src imm8 => Sys2Proof.Machine.execVpermqVex256Imm dst src imm8 s
  | .vpermqEvex256Imm dst src imm8 mask z b => Sys2Proof.Machine.execVpermqEvex256Imm dst src imm8 mask z b s
  | .vpermqEvex512Imm dst src imm8 mask z b => Sys2Proof.Machine.execVpermqEvex512Imm dst src imm8 mask z b s
  | .vpermqEvex256Vec dst idx src mask z b => Sys2Proof.Machine.execVpermqEvex256Vec dst idx src mask z b s
  | .vpermqEvex512Vec dst idx src mask z b => Sys2Proof.Machine.execVpermqEvex512Vec dst idx src mask z b s

end Sys2Proof.Machine
end

