-- ==== Sys2Proof/Machine/Fetch.lean ====
section
/-! DEFINITION. Fetching an instruction's bytes (30_encoding.md R74) and the launch premises a step checks
(70_reset_and_hazards.md R161, R162). -/

namespace Sys2Proof.Machine

/-- Up to `n` readable bytes from `a` up, one at a time in ascending order, with the first unreadable byte
and its fault if one is met (R74). -/
def fetchFrom (c : Config) (m : Memory) : (n : Nat) → (a : Addr) → List Byte × Option (Addr × MemFault)
  | 0, _ => ([], none)
  | n + 1, a =>
    match readable c a with
    | some f => ([], some (a, f))
    | none => (readByte m a :: (fetchFrom c m n (a + 1#64)).1, (fetchFrom c m n (a + 1#64)).2)

/-- The bytes at `pc` the decoder may look at: none of R74's instructions is longer than 12. -/
def fetchBytes (s : State) : List Byte := (fetchFrom s.cfg s.mem maxLength s.pc).1

/-- The outcome when the decoder needs a byte beyond the fetched ones: the memory fault of that byte (R74). Of
12 bytes the decoder never needs another, so the last case is not reached. -/
def fetchFault (s : State) : StepResult :=
  match (fetchFrom s.cfg s.mem maxLength s.pc).2 with
  | some (a, f) => takeException (.memory f a) s
  | none => .refused .notVpermq

/-- Why the machine does not run at all: the run has ended (R162), or a launch premise does not hold (R80,
R26; R161 L1, L2). Nothing is fetched then (log entry 15). -/
def launchRefusal (s : State) : Option Refusal :=
  if s.pEnd = some s.pc then some .runEnded
  else if !s.cfg.mode64 then some .notMode64
  else if !s.cfg.stateEnabled then some .stateNotEnabled
  else none

/-- The outcome of a byte sequence the decoder refuses (R75, R79). -/
def refusalOf : DecodeRefusal → Refusal
  | .notVpermq => .notVpermq
  | .unmodelledPrefix => .unmodelledPrefix

end Sys2Proof.Machine
end

