-- ==== Sys2Proof/Machine/Step.lean ====
section
/-! DEFINITION. One step: the launch premises (R161, R162), fetch and decode (R74, R81), the instruction
(R104). Decoding comes before any operand access, so #UD comes before a data fault (R145). -/

namespace Sys2Proof.Machine

def step (s : State) : Host.Outcome State Fault Refusal :=
  match launchRefusal s with
  | some r => .refused r
  | none =>
    match decode s.cfg (fetchBytes s) with
    | .instr i _ => exec i s
    | .ud => takeException .ud s
    | .refuse why => .refused (refusalOf why)
    | .truncated => fetchFault s

/-- The launch's load of one instruction, given as spec/opcode_table.json numbers its bits: its bytes stand
at `pc`, with zeros after them, and the run does not end there (log entries 9, 16). The premises of the launch
(64-bit mode, vector state enabled, readable bytes) are those of `s`. -/
def State.withFetchWord (s : State) (nbits w : Nat) : State :=
  { s with mem := writeList s.mem s.pc (tableBytes nbits w), pEnd := none }

end Sys2Proof.Machine
end

