-- ==== Sys2Proof/Safety.lean ====
section
/-! DEFINITION. The terms claims are stated in: the machine's invariant, the frame of an instruction
(10_state.md R30), the elements of a source operand (40_vpermq_imm8.md R101) and the result an instruction is to
leave. -/

namespace Sys2Proof

/-- A configuration the spec admits: KW at least 8 (R5, D3; at most 64, log entry 3), and the EVEX feature
flags only with MAXVL = 512 (D2). -/
def Config.wf (c : Config) : Bool :=
  decide (8 ≤ c.kw) && decide (c.kw ≤ 64) && (c.maxvl == .w512 || (!c.hasAvx512f && !c.hasAvx512vl))

/-- The feature test of each form as R142 words it. The model's own test, `Config.supports`, also asks the EVEX forms
for MAXVL = 512 (D2, log entry 10); on admitted configurations the two agree. -/
def Config.cpuidFlags (c : Config) : Form → Bool
  | .vex256Imm => c.hasAvx2
  | .evex512Imm => c.hasAvx512f
  | .evex512Vec => c.hasAvx512f
  | .evex256Imm => c.hasAvx512vl && c.hasAvx512f
  | .evex256Vec => c.hasAvx512vl && c.hasAvx512f

namespace Machine

/-- The invariant: an admitted configuration, canonical memory, vector registers of MAXVL bits (R20) and opmask
registers of KW bits (R22) in their containers. -/
abbrev State.Inv (s : State) : Prop :=
  s.cfg.wf = true ∧ Memory.wf s.mem = true ∧
    (∀ n : VReg, (readV s n).toNat < 2 ^ s.cfg.maxvl.bits) ∧ (∀ n : KReg, (readK s n).toNat < 2 ^ s.cfg.kw)

/-- The launch premises a step checks (R161 L1, L2; R162): in 64-bit mode, vector state enabled, not at
`p_end`. -/
abbrev State.Runs (s : State) : Prop :=
  s.cfg.mode64 = true ∧ s.cfg.stateEnabled = true ∧ s.pEnd ≠ some s.pc

/-- A form may execute: vector state enabled and feature flags set (R26, R142). -/
abbrev FormRuns (f : Form) (s : State) : Prop := s.cfg.stateEnabled = true ∧ s.cfg.supports f = true

/-- The linear addresses of the bytes an operand reads (R44); none for a register. -/
def operandAddrs (f : Form) (src : Src) (bcst : Bool) (s : State) : List Addr :=
  match src with
  | .reg _ => []
  | .mem m => addrRange (operandAddress f bcst s m) (operandSize f bcst)

/-- Every byte of the source operand is readable (R42); always so of a register. -/
def sourceReadable (f : Form) (src : Src) (bcst : Bool) (s : State) : Bool :=
  (operandAddrs f src bcst s).all fun a => (readable s.cfg a).isNone

/-- Element `j` of the source (R41, R101): element `j` of the register, the 8 bytes at `a + 8j`, or with
broadcast the 8 bytes at `a`. -/
def sourceElement (f : Form) (src : Src) (bcst : Bool) (s : State) (j : Nat) : Qword :=
  match src with
  | .reg n => qword (readV s n) j
  | .mem m =>
    readBytes s.mem (if bcst then operandAddress f bcst s m else operandAddress f bcst s m + BitVec.ofNat 64 (8 * j)) 8

/-- Which source element an immediate form sends to element `j`: field `j mod 4` within the same half (R105). -/
def immTakes (imm8 : BitVec 8) (j : Nat) : Nat := 4 * (j / 4) + (imm8 >>> (2 * (j % 4))).toNat % 4

/-- Which source element a vector form sends to element `j`: the low `nb` bits of index element `j`, a number
below KL (R120). -/
def vecTakes (vl : VLen) (s : State) (idx : VReg) (j : Nat) : Nat := (qword (readV s idx) j).toNat % vl.kl

/-- Nothing but `V[dst]` and `pc` differs (R30). -/
structure Frame (dst : VReg) (s t : State) : Prop where
  v    : ∀ n, n ≠ dst → readV t n = readV s n
  k    : ∀ n, readK t n = readK s n
  x    : ∀ n, readX t n = readX s n
  mem  : ∀ a, readByte t.mem a = readByte s.mem a
  pEnd : t.pEnd = s.pEnd
  cfg  : t.cfg = s.cfg

/-- The state an instruction is to leave: element `j` of the destination is the source element `takes j` where the
writemask lets it through, else the old element or 0 (R102); bits from VL up are zero (R103); `pc` has moved past
the instruction (R23); the rest is as before (R30). -/
structure Result (i : Instr) (takes : Nat → Nat) (s t : State) : Prop where
  element : ∀ j, j < i.form.vl.kl →
    qword (readV t i.dst) j =
      if i.mask = 0#3 ∨ (readK s i.mask).getLsbD j = true then sourceElement i.form i.src i.bcst s (takes j)
      else if i.zeroing = true then 0#64 else qword (readV s i.dst) j
  upper   : ∀ b, i.form.vl.bits ≤ b → (readV t i.dst).getLsbD b = false
  pc      : t.pc = s.pc + BitVec.ofNat 64 i.length
  frame   : Frame i.dst s t

/-- The instruction completes in a state that is the given result. -/
def CompletesWith (i : Instr) (takes : Nat → Nat) (s : State) : Prop :=
  ∃ t, exec i s = .next t ∧ Result i takes s t

/-- The bytes of a list stand at `pc` and can be read (R161 L4). -/
abbrev StandsAtPc (s : State) (bs : List Byte) : Prop :=
  ∀ n (h : n < bs.length), readable s.cfg (s.pc + BitVec.ofNat 64 n) = none ∧
    readByte s.mem (s.pc + BitVec.ofNat 64 n) = bs[n]

/-- `a` is an unreadable byte of the list with fault `f`, and no unreadable byte of the list has a lower address
(R42). -/
abbrev LowestFault (c : Config) (as : List Addr) (a : Addr) (f : MemFault) : Prop :=
  a ∈ as ∧ readable c a = some f ∧ ∀ b ∈ as, readable c b ≠ none → a ≤ b

/-- The fault outcome that names an exception of a memory access (R146). -/
def memoryFault (f : MemFault) (a pc : Addr) : Fault :=
  match f with
  | .pf code => .pageFault code a pc
  | .gp0 => .generalProtection a pc
  | .ss0 => .stackFault a pc

end Machine
end Sys2Proof
end

