-- ==== Sys2Proof/Certificates/Slice0/Obligations.lean ====
section
/-! DEFINITION. The statements for the provers. Each docstring names the rule or section of spec/ it formalises.
The spec marks many of its rules as its own inference ("derived"), decision or general knowledge: a statement on
one of those has basis 'derived'. -/

open Sys2Proof Sys2Proof.Machine

/-! ### Encoding (30_encoding.md) -/

/-- Words written out from R63, R64, R70 decode to the records 95_test_vectors.md section 3 gives: E2, E21, E16,
E29 and E34 (one of each form). Log entry 12: the spec holds every bit position from general knowledge. -/
def Obligations.SampleWordsDecodeToTheirRecords : Prop :=
  decode Config.default [0xC4, 0x43, 0xFD, 0x00, 0xCC, 0x4E]
      = .instr (.vpermqVex256Imm 9 (.reg 12) 0x4E) [] ∧
    decode Config.default [0x62, 0xF3, 0xFD, 0x2A, 0x00, 0x58, 0x01, 0x1B]
      = .instr (.vpermqEvex256Imm 3 (.mem (.base 0 (.disp8 1))) 0x1B 2 false false) [] ∧
    decode Config.default [0x62, 0xB3, 0xFD, 0x48, 0x00, 0xC1, 0x1B]
      = .instr (.vpermqEvex512Imm 0 (.reg 17) 0x1B 0 false false) [] ∧
    decode Config.default [0x62, 0xF2, 0xD5, 0x2B, 0x36, 0x66, 0x02]
      = .instr (.vpermqEvex256Vec 4 5 (.mem (.base 6 (.disp8 2))) 3 false false) [] ∧
    decode Config.default [0x62, 0xA2, 0xB5, 0xD7, 0x36, 0x8C, 0x8A, 0xF8, 0x07, 0x00, 0x00]
      = .instr (.vpermqEvex512Vec 17 25 (.mem (.sib 2 9 2 (.disp32 0x7F8))) 7 true true) []

/-- Decoding the bytes of a well-formed instruction gives the instruction and what follows it, every operand at
every value (R62 to R70). -/
def Obligations.DecodeOfEncodeIsTheInstruction : Prop :=
  ∀ (c : Config) (i : Instr) (rest : List Byte), i.wellFormed = true → c.supports i.form = true →
    decode c (encode i ++ rest) = .instr i rest

/-- What the decoder yields is well formed and allowed by the feature flags, and it took exactly the
instruction's length, 6 to 12 bytes (R69, R73, R74). -/
def Obligations.DecodedInstructionsAreWellFormed : Prop :=
  ∀ (c : Config) (bs rest : List Byte) (i : Instr), decode c bs = .instr i rest →
    i.wellFormed = true ∧ c.supports i.form = true ∧ 6 ≤ i.length ∧ i.length ≤ 12 ∧
      ∃ head : List Byte, bs = head ++ rest ∧ head.length = i.length

/-- A verdict rests on the bytes read so far: bytes after it change nothing (R74, D12). -/
def Obligations.VerdictsIgnoreLaterBytes : Prop :=
  ∀ (c : Config) (bs more : List Byte),
    (decode c bs = .ud → decode c (bs ++ more) = .ud) ∧
    (∀ why, decode c bs = .refuse why → decode c (bs ++ more) = .refuse why) ∧
    (∀ i rest, decode c bs = .instr i rest → decode c (bs ++ more) = .instr i (rest ++ more))

/-- No instruction needs a thirteenth byte (R74). -/
def Obligations.TwelveBytesDecide : Prop :=
  ∀ (c : Config) (bs : List Byte), 12 ≤ bs.length → decode c bs ≠ .truncated

/-- R72: the four encodings the source says raise #UD, each found from the bytes up to the opcode byte, whatever
the operand: VEX.L = 0; stored VEX.vvvv other than 1111; EVEX length field 00 in all four EVEX forms; stored
EVEX.vvvv other than 1111 in the immediate forms. The fault carries no state: nothing is written. -/
def Obligations.SourceStatedIllegalEncodingsRaiseUd : Prop :=
  ∀ s : State, s.Runs →
    (∀ b1 b2 : Byte, StandsAtPc s [0xC4, b1, b2, 0x00] →
      b1.extractLsb' 0 5 = 0b00011#5 → b2.extractLsb' 7 1 = 1#1 → b2.extractLsb' 0 2 = 0b01#2 →
      (b2.extractLsb' 2 1 = 0#1 ∨ b2.extractLsb' 3 4 ≠ 0b1111#4) → step s = .fault (.ud s.pc)) ∧
    (∀ p0 p1 p2 op : Byte, StandsAtPc s [0x62, p0, p1, p2, op] →
      ((p0.extractLsb' 0 2 = 0b11#2 ∧ op = 0x00) ∨ (p0.extractLsb' 0 2 = 0b10#2 ∧ op = 0x36)) →
      p1.extractLsb' 7 1 = 1#1 → p1.extractLsb' 0 2 = 0b01#2 →
      p2.extractLsb' 5 2 = 0b00#2 → step s = .fault (.ud s.pc)) ∧
    (∀ p0 p1 p2 : Byte, StandsAtPc s [0x62, p0, p1, p2, 0x00] →
      p0.extractLsb' 0 2 = 0b11#2 → p1.extractLsb' 7 1 = 1#1 → p1.extractLsb' 0 2 = 0b01#2 →
      p1.extractLsb' 3 4 ≠ 0b1111#4 → step s = .fault (.ud s.pc))

/-- R73 rows 5 to 10: wrong reserved EVEX bits, length 11, broadcast with a register, zeroing without a mask,
stored V' = 0 in an immediate form, a LOCK, 66, F2, F3 or REX byte before the vector prefix. -/
def Obligations.FurtherIllegalEncodingsRaiseUd : Prop :=
  ∀ s : State, s.Runs →
    (∀ p0 p1 p2 op : Byte, StandsAtPc s [0x62, p0, p1, p2, op] →
      (p0.extractLsb' 2 2 ≠ 0b00#2 ∨ p1.extractLsb' 2 1 ≠ 1#1) → step s = .fault (.ud s.pc)) ∧
    (∀ p0 p1 p2 op : Byte, StandsAtPc s [0x62, p0, p1, p2, op] →
      ((p0.extractLsb' 0 2 = 0b11#2 ∧ op = 0x00) ∨ (p0.extractLsb' 0 2 = 0b10#2 ∧ op = 0x36)) →
      p1.extractLsb' 7 1 = 1#1 → p1.extractLsb' 0 2 = 0b01#2 →
      (p2.extractLsb' 5 2 = 0b11#2 ∨ (p2.extractLsb' 7 1 = 1#1 ∧ p2.extractLsb' 0 3 = 0#3) ∨
        (op = 0x00 ∧ p2.extractLsb' 3 1 = 0#1)) → step s = .fault (.ud s.pc)) ∧
    (∀ p0 p1 p2 op modrm : Byte, StandsAtPc s [0x62, p0, p1, p2, op, modrm] →
      ((p0.extractLsb' 0 2 = 0b11#2 ∧ op = 0x00) ∨ (p0.extractLsb' 0 2 = 0b10#2 ∧ op = 0x36)) →
      p1.extractLsb' 7 1 = 1#1 → p1.extractLsb' 0 2 = 0b01#2 →
      modrm.extractLsb' 6 2 = 0b11#2 → p2.extractLsb' 4 1 = 1#1 → step s = .fault (.ud s.pc)) ∧
    (∀ b0 b1 : Byte, StandsAtPc s [b0, b1] →
      (b0 = 0xF0 ∨ b0 = 0x66 ∨ b0 = 0xF2 ∨ b0 = 0xF3 ∨ (0x40 ≤ b0.toNat ∧ b0.toNat ≤ 0x4F)) →
      (b1 = 0xC4 ∨ b1 = 0x62) → step s = .fault (.ud s.pc))

/-- R75, R79, R81: what is not VPERMQ is refused by name, and so is a segment-override or address-size byte. -/
def Obligations.ForeignBytesAreRefused : Prop :=
  ∀ s : State, s.Runs →
    (∀ b0 : Byte, StandsAtPc s [b0] →
      b0 ∈ ([0x26, 0x2E, 0x36, 0x3E, 0x64, 0x65, 0x67] : List Byte) → step s = .refused .unmodelledPrefix) ∧
    (∀ b0 : Byte, StandsAtPc s [b0] →
      b0 ∉ ([0x26, 0x2E, 0x36, 0x3E, 0x64, 0x65, 0x67, 0xF0, 0x66, 0xF2, 0xF3, 0xC4, 0x62] : List Byte) →
      b0.extractLsb' 4 4 ≠ 0x4#4 → step s = .refused .notVpermq) ∧
    (∀ b0 b1 : Byte, StandsAtPc s [b0, b1] →
      (b0 = 0xF0 ∨ b0 = 0x66 ∨ b0 = 0xF2 ∨ b0 = 0xF3 ∨ (0x40 ≤ b0.toNat ∧ b0.toNat ≤ 0x4F)) →
      b1 ≠ 0xC4 → b1 ≠ 0x62 → step s = .refused .notVpermq) ∧
    (∀ b1 b2 op : Byte, StandsAtPc s [0xC4, b1, b2, op] →
      (b1.extractLsb' 0 5 ≠ 0b00011#5 ∨ b2.extractLsb' 7 1 = 0#1 ∨ b2.extractLsb' 0 2 ≠ 0b01#2 ∨ op ≠ 0x00) →
      step s = .refused .notVpermq) ∧
    (∀ p0 p1 p2 op : Byte, StandsAtPc s [0x62, p0, p1, p2, op] →
      p0.extractLsb' 2 2 = 0b00#2 → p1.extractLsb' 2 1 = 1#1 →
      (p1.extractLsb' 7 1 = 0#1 ∨ p1.extractLsb' 0 2 ≠ 0b01#2 ∨
        ¬ ((p0.extractLsb' 0 2 = 0b11#2 ∧ op = 0x00) ∨ (p0.extractLsb' 0 2 = 0b10#2 ∧ op = 0x36))) →
      step s = .refused .notVpermq)

/-! ### Step, launch and fetch (30_encoding.md R74; 70_reset_and_hazards.md R161, R162) -/

/-- When the machine runs and the fetched bytes decode to an instruction, the step is that instruction (R74, R81,
R104); the pc moves in the instruction's own meaning. -/
def Obligations.StepRunsTheDecodedInstruction : Prop :=
  ∀ (s : State) (i : Instr) (rest : List Byte), s.Runs → decode s.cfg (fetchBytes s) = .instr i rest →
    step s = exec i s

/-- When the bytes of a well-formed instruction stand readable at `pc`, the step is that instruction, whatever
stands after it (R74, R104, R161 L1 to L4). -/
def Obligations.StepRunsTheBytesAtPc : Prop :=
  ∀ (s : State) (i : Instr), s.Runs → i.wellFormed = true → s.cfg.supports i.form = true →
    StandsAtPc s (encode i) → step s = exec i s

/-- An unreadable byte the decoder needs is the memory fault of that byte (R74, D12). -/
def Obligations.FetchOfUnreadableByteFaults : Prop :=
  ∀ (s : State) (bs : List Byte) (f : MemFault), s.Runs → StandsAtPc s bs → decode s.cfg bs = .truncated →
    readable s.cfg (s.pc + BitVec.ofNat 64 bs.length) = some f →
    step s = .fault (memoryFault f (s.pc + BitVec.ofNat 64 bs.length) s.pc)

/-- Outside 64-bit mode, or with the vector state not enabled, the model refuses to run (R26, R80, R161); at
`p_end` the run has ended (R162). Nothing is fetched: the bytes at `pc` may be any and unreadable. The order of
the three is the model's (log entry 15). -/
def Obligations.MachineThatMayNotRunIsRefused : Prop :=
  ∀ s : State, (s.pEnd = some s.pc → step s = .refused .runEnded) ∧
    (s.pEnd ≠ some s.pc → s.cfg.mode64 = false → step s = .refused .notMode64) ∧
    (s.pEnd ≠ some s.pc → s.cfg.mode64 = true → s.cfg.stateEnabled = false → step s = .refused .stateNotEnabled)

/-- A completed step is one instruction: it decoded at `pc`, wrote only its destination, and moved `pc` past its
bytes (R12, R23, R30). -/
def Obligations.CompletedStepIsOneInstruction : Prop :=
  ∀ s t : State, step s = .next t →
    ∃ (i : Instr) (rest : List Byte), decode s.cfg (fetchBytes s) = .instr i rest ∧ s.Runs ∧
      Frame i.dst s t ∧ t.pc = s.pc + BitVec.ofNat 64 i.length

/-! ### Primitives (40_vpermq_imm8.md R100 to R105; 41_vpermq_vector.md R120; 20_memory.md) -/

/-- `SelectQ(X, s) = qword(X, s)` for 256 bits and `s <= 3`, 512 bits and `s <= 7` (R100). -/
def Obligations.SelectQIsTheElement : Prop :=
  (∀ (x : BitVec 256) (sel : Nat), sel ≤ 3 → selectQ x sel = qword x sel) ∧
    (∀ (x : BitVec 512) (sel : Nat), sel ≤ 7 → selectQ x sel = qword x sel)

/-- R101: a register gives its low VL bits; a memory operand VL/8 bytes, element `j` the 8 bytes at `a + 8j`; with
broadcast every element is the 8 bytes at `a`; a record with broadcast and a register is not broadcast. -/
def Obligations.FetchSrcElements : Prop :=
  (∀ (f : Form) (n : VReg) (bcst : Bool) (s : State),
    fetchSrc f (.reg n) bcst s = .ok ((readV s n).extractLsb' 0 f.vl.bits)) ∧
  (∀ (f : Form) (m : MemRef) (s : State), sourceReadable f (.mem m) false s = true →
    ∃ t, fetchSrc f (.mem m) false s = .ok t ∧
      ∀ j, j < f.vl.kl →
        qword t j = readBytes s.mem (operandAddress f false s m + BitVec.ofNat 64 (8 * j)) 8) ∧
  (∀ (f : Form) (m : MemRef) (s : State), sourceReadable f (.mem m) true s = true →
    ∃ t, fetchSrc f (.mem m) true s = .ok t ∧
      ∀ j, j < f.vl.kl → qword t j = readBytes s.mem (operandAddress f true s m) 8)

/-- R102, element by element. -/
def Obligations.ApplyMaskElements : Prop :=
  ∀ (vl : VLen) (s : State) (mask : KReg) (zeroing : Bool) (old tmp : BitVec vl.bits) (j : Nat), j < vl.kl →
    (mask = 0#3 → qword (applyMask s mask zeroing old tmp) j = qword tmp j) ∧
    (mask ≠ 0#3 → (readK s mask).getLsbD j = true →
      qword (applyMask s mask zeroing old tmp) j = qword tmp j) ∧
    (mask ≠ 0#3 → (readK s mask).getLsbD j = false → zeroing = false →
      qword (applyMask s mask zeroing old tmp) j = qword old j) ∧
    (mask ≠ 0#3 → (readK s mask).getLsbD j = false → zeroing = true →
      qword (applyMask s mask zeroing old tmp) j = 0#64)

/-- R103: bits VL-1:0 of the register receive the result, bits from VL up receive zero, and no other register
changes. -/
def Obligations.WriteDestZeroesAboveVL : Prop :=
  ∀ (vl : VLen) (s : State) (dst : VReg) (r : BitVec vl.bits),
    (readV (writeDest s dst r) dst).extractLsb' 0 vl.bits = r ∧
    (∀ b, vl.bits ≤ b → (readV (writeDest s dst r) dst).getLsbD b = false) ∧
    ∀ n, n ≠ dst → readV (writeDest s dst r) n = readV s n

/-- R105: element `4h + j` of the result is element `4h + imm8[2j+1:2j]` of the operand, for each 256-bit half. -/
def Obligations.PermImmElements : Prop :=
  ∀ (vl : VLen) (imm8 : BitVec 8) (t : BitVec vl.bits) (h j : Nat), h < vl.bits / 256 → j < 4 →
    qword (permImm imm8 t) (4 * h + j) = qword t (4 * h + (imm8.extractLsb' (2 * j) 2).toNat)

/-- R120: element `j` of the result is the data element numbered by the low 2 bits (VL = 256) or 3 bits (VL = 512)
of index element `j`; the other bits of the index play no part, and at 512 any element can reach any place. -/
def Obligations.PermVecElements : Prop :=
  (∀ (x t : BitVec VLen.vl256.bits) (j : Nat), j < 4 →
    qword (permVec x t) j = qword t ((qword x j).extractLsb' 0 2).toNat) ∧
  (∀ (x t : BitVec VLen.vl512.bits) (j : Nat), j < 8 →
    qword (permVec x t) j = qword t ((qword x j).extractLsb' 0 3).toNat)

/-- R41: bits `[8k+7:8k]` of an operand of `n` bytes are the byte at `a + k`; reading 64 bytes as one operand or as
eight operands of 8 bytes yields the same elements. -/
def Obligations.OperandsAreLittleEndian : Prop :=
  (∀ (m : Memory) (a : Addr) (n k : Nat), k < n →
    (readBytes m a n).extractLsb' (8 * k) 8 = readByte m (a + BitVec.ofNat 64 k)) ∧
  (∀ (m : Memory) (a : Addr) (j : Nat), j < 8 →
    qword (readBytes m a 64) j = readBytes m (a + BitVec.ofNat 64 (8 * j)) 8)

/-- R42: `MemRead` gives the bytes when each can be read, and otherwise the fault of the lowest-addressed
unreadable byte; lowest is by numeric address also where the read wraps (log entry 11). -/
def Obligations.MemReadFaultsAtTheLowestByte : Prop :=
  ∀ (s : State) (a : Addr) (n : Nat),
    ((∀ b ∈ addrRange a n, readable s.cfg b = none) → memRead s a n = .ok (readBytes s.mem a n)) ∧
    ((∃ b ∈ addrRange a n, readable s.cfg b ≠ none) →
      ∃ b f, LowestFault s.cfg (addrRange a n) b f ∧ memRead s a n = .error (.memory f b))

/-- R66, R67: the linear address of each addressing form, as an integer sum modulo `2^64`; the index 0100 counts
as 0; a one-byte displacement is scaled by 1 under VEX, by VL/8 under EVEX, by 8 with broadcast. -/
def Obligations.EffectiveAddressIsTheSum : Prop :=
  ∀ (f : Form) (bcst : Bool) (s : State) (b ix : GReg) (ss : BitVec 2) (d8 : BitVec 8) (d32 : BitVec 32),
    let n : Int := if f = .vex256Imm then 1 else if bcst then 8 else (f.vl.bits / 8 : Nat)
    let index : Int := if ix = 4#4 then 0 else (readX s ix).toNat * 2 ^ ss.toNat
    let base : Int := (readX s b).toNat
    operandAddress f bcst s (.ripRel d32)
        = BitVec.ofInt 64 (s.pc.toNat + instrLength f (.mem (.ripRel d32)) + d32.toInt) ∧
    operandAddress f bcst s (.base b .absent) = BitVec.ofInt 64 base ∧
    operandAddress f bcst s (.base b (.disp8 d8)) = BitVec.ofInt 64 (base + d8.toInt * n) ∧
    operandAddress f bcst s (.base b (.disp32 d32)) = BitVec.ofInt 64 (base + d32.toInt) ∧
    operandAddress f bcst s (.sib ss ix b .absent) = BitVec.ofInt 64 (base + index) ∧
    operandAddress f bcst s (.sib ss ix b (.disp8 d8)) = BitVec.ofInt 64 (base + index + d8.toInt * n) ∧
    operandAddress f bcst s (.sib ss ix b (.disp32 d32)) = BitVec.ofInt 64 (base + index + d32.toInt) ∧
    operandAddress f bcst s (.sibNoBase ss ix d32) = BitVec.ofInt 64 (index + d32.toInt)

/-- R7: a `MemWrite` read back gives the value written, and every other byte is unchanged (memory canonical; the
range does not wrap onto itself). -/
def Obligations.MemWriteThenMemRead : Prop :=
  ∀ (m : Memory) (a : Addr) (n : Nat) (v : BitVec (8 * n)), Memory.wf m = true → n ≤ 2 ^ 64 →
    readBytes (memWrite m a n v) a n = v ∧
      ∀ b, b ∉ addrRange a n → readByte (memWrite m a n v) b = readByte m b

/-- R7: a general register written reads back, and no other register, no byte of memory and not `pc` changes; setting
`pc` changes `pc` only. No instruction uses the first (R24; log entry 21). -/
def Obligations.GeneralRegisterWriteThenRead : Prop :=
  ∀ (s : State) (i : GReg) (v t : Addr),
    readX (writeX s i v) i = v ∧ (∀ j, j ≠ i → readX (writeX s i v) j = readX s j) ∧
    writeX s i v = { s with x := (writeX s i v).x } ∧
    (setPc s t).pc = t ∧ setPc s t = { s with pc := t }

/-! ### The five instructions: completion, result and frame (R104, R106 to R108, R121, R122, R30) -/

/-- R106: with its form enabled and its operand readable, the VEX form completes with the immediate permutation of
the low half. -/
def Obligations.Vex256ImmCompletes : Prop :=
  ∀ (s : State) (dst : VReg) (src : Src) (imm8 : BitVec 8),
    FormRuns .vex256Imm s → sourceReadable .vex256Imm src false s = true →
    CompletesWith (.vpermqVex256Imm dst src imm8) (immTakes imm8) s

/-- R107. -/
def Obligations.Evex256ImmCompletes : Prop :=
  ∀ (s : State) (dst : VReg) (src : Src) (imm8 : BitVec 8) (mask : KReg) (zeroing bcst : Bool),
    FormRuns .evex256Imm s → sourceReadable .evex256Imm src bcst s = true →
    CompletesWith (.vpermqEvex256Imm dst src imm8 mask zeroing bcst) (immTakes imm8) s

/-- R108. -/
def Obligations.Evex512ImmCompletes : Prop :=
  ∀ (s : State) (dst : VReg) (src : Src) (imm8 : BitVec 8) (mask : KReg) (zeroing bcst : Bool),
    FormRuns .evex512Imm s → sourceReadable .evex512Imm src bcst s = true →
    CompletesWith (.vpermqEvex512Imm dst src imm8 mask zeroing bcst) (immTakes imm8) s

/-- R121. -/
def Obligations.Evex256VecCompletes : Prop :=
  ∀ (s : State) (dst idx : VReg) (src : Src) (mask : KReg) (zeroing bcst : Bool),
    FormRuns .evex256Vec s → sourceReadable .evex256Vec src bcst s = true →
    CompletesWith (.vpermqEvex256Vec dst idx src mask zeroing bcst) (vecTakes .vl256 s idx) s

/-- R122. -/
def Obligations.Evex512VecCompletes : Prop :=
  ∀ (s : State) (dst idx : VReg) (src : Src) (mask : KReg) (zeroing bcst : Bool),
    FormRuns .evex512Vec s → sourceReadable .evex512Vec src bcst s = true →
    CompletesWith (.vpermqEvex512Vec dst idx src mask zeroing bcst) (vecTakes .vl512 s idx) s

/-- R30: an instruction that completes wrote the destination (zero from VL up, R103) and `pc` (R23), and nothing
else: no other vector register, no opmask or general register, no byte of memory. For all five forms and every
record. -/
def Obligations.CompletedInstructionsChangeOnlyDestinationAndPc : Prop :=
  ∀ (i : Instr) (s t : State), exec i s = .next t →
    Frame i.dst s t ∧ t.pc = s.pc + BitVec.ofNat 64 i.length ∧
      ∀ b, i.form.vl.bits ≤ b → (readV t i.dst).getLsbD b = false

/-- R42, R45: an unreadable byte anywhere in the memory operand is its fault, whatever the writemask holds; the
fault is that of the lowest-addressed one and names the instruction's `pc` (R146, R151). Lowest is by numeric address
also where the read wraps past the top of the address space: the model's reading (log entry 11). -/
def Obligations.UnreadableOperandFaultsWhateverTheMask : Prop :=
  ∀ (i : Instr) (s : State), FormRuns i.form s → sourceReadable i.form i.src i.bcst s = false →
    ∃ a f, LowestFault s.cfg (operandAddrs i.form i.src i.bcst s) a f ∧
      exec i s = .fault (memoryFault f a s.pc)

/-- R142, R73 row 11: a form whose feature flags are not all set raises #UD; the 256-bit EVEX forms need both flags.
The machine itself does so when it decodes: a step at the bytes of such an instruction is the fault. So does `exec` of
the record, with the vector state enabled. (The flags are D4's decision; bit positions: log entry 12.) -/
def Obligations.ClearFeatureFlagRaisesUd : Prop :=
  (∀ (s : State) (i : Instr), s.Runs → i.wellFormed = true → StandsAtPc s (encode i) →
    s.cfg.cpuidFlags i.form = false → step s = .fault (.ud s.pc)) ∧
  (∀ (s : State) (i : Instr), s.cfg.stateEnabled = true → s.cfg.cpuidFlags i.form = false →
    exec i s = .fault (.ud s.pc))

/-- R144: the outcomes of one VPERMQ, each with when it happens. It completes exactly when its form may execute and
its operand is readable. #UD comes only from the model's feature test: in an admitted configuration only with one of the
form's own flags of R142 clear; in another also for an EVEX form at MAXVL = 256 with its flags set, which is the model's
choice (log entry 10). A memory fault comes only with the flags set and an unreadable byte, which it names; a refusal only
with the vector state not enabled (R26), tested first (log entry 15). Every fault names the instruction's `pc` (R146). -/
def Obligations.OutcomesOfOneInstruction : Prop :=
  ∀ (i : Instr) (s : State),
    match exec i s with
    | .next _ =>
      FormRuns i.form s ∧ s.cfg.cpuidFlags i.form = true ∧ sourceReadable i.form i.src i.bcst s = true
    | .fault f =>
      s.cfg.stateEnabled = true ∧ f.pc = s.pc ∧
        (match f.address with
          | none => s.cfg.supports i.form = false ∧ (s.cfg.wf = true → s.cfg.cpuidFlags i.form = false)
          | some a => s.cfg.supports i.form = true ∧ s.cfg.cpuidFlags i.form = true ∧
              a ∈ operandAddrs i.form i.src i.bcst s ∧ readable s.cfg a ≠ none)
    | .refused r => r = .stateNotEnabled ∧ s.cfg.stateEnabled = false

/-- R101, U4: a record with broadcast and a register source executes as without broadcast. -/
def Obligations.BroadcastFromARegisterIsNotBroadcast : Prop :=
  ∀ (s : State) (dst idx n : VReg) (imm8 : BitVec 8) (mask : KReg) (z : Bool),
    exec (.vpermqEvex256Imm dst (.reg n) imm8 mask z true) s
        = exec (.vpermqEvex256Imm dst (.reg n) imm8 mask z false) s ∧
    exec (.vpermqEvex512Imm dst (.reg n) imm8 mask z true) s
        = exec (.vpermqEvex512Imm dst (.reg n) imm8 mask z false) s ∧
    exec (.vpermqEvex256Vec dst idx (.reg n) mask z true) s
        = exec (.vpermqEvex256Vec dst idx (.reg n) mask z false) s ∧
    exec (.vpermqEvex512Vec dst idx (.reg n) mask z true) s
        = exec (.vpermqEvex512Vec dst idx (.reg n) mask z false) s

/-! ### What an instruction does not depend on -/

/-- R22: only bits KL-1:0 of the one opmask register named are read. Two states alike but for other opmask bits
complete alike. -/
def Obligations.UnreadMaskBitsDoNotMatter : Prop :=
  ∀ (i : Instr) (s t : State) (k' : Vector (BitVec 64) 8),
    (∀ j, j < i.form.vl.kl → (readK { s with k := k' } i.mask).getLsbD j = (readK s i.mask).getLsbD j) →
    exec i s = .next t → exec i { s with k := k' } = .next { t with k := k' }

/-- R21, R101, R120: a form reads the low VL bits of a vector register and ignores the rest. Two states whose vector
registers agree below VL leave the same destination. -/
def Obligations.RegisterBitsAboveVLDoNotMatter : Prop :=
  ∀ (i : Instr) (s t : State) (v' : Vector (BitVec 512) 32),
    (∀ n, readVL i.form.vl { s with v := v' } n = readVL i.form.vl s n) →
    exec i s = .next t →
    ∃ t', exec i { s with v := v' } = .next t' ∧ readV t' i.dst = readV t i.dst

/-- R123(c): the vector permutation depends on its index only through the low 2 or 3 bits of each element. -/
def Obligations.UnreadIndexBitsDoNotMatter : Prop :=
  ∀ (vl : VLen) (x y t : BitVec vl.bits),
    (∀ j, j < vl.kl → (qword x j).toNat % vl.kl = (qword y j).toNat % vl.kl) → permVec x t = permVec y t

/-! ### Derived properties of the permutations (R109, R123) -/

/-- R109(a): with no mask and sources that hold the same 256 bits (the same register, or the same address, which the
two prefixes may spell with different displacements) the VEX form and the 256-bit EVEX immediate form write the same
value and leave the same state but for `pc`, which follows their lengths. -/
def Obligations.Vex256AndEvex256ImmAgree : Prop :=
  ∀ (s t u : State) (dst : VReg) (src src' : Src) (imm8 : BitVec 8) (z : Bool),
    fetchSrc .vex256Imm src false s = fetchSrc .evex256Imm src' false s →
    exec (.vpermqVex256Imm dst src imm8) s = .next t →
    exec (.vpermqEvex256Imm dst src' imm8 0#3 z false) s = .next u →
    { u with pc := t.pc } = t

/-- R109(b): E4h is the identity, 1Bh reverses each half, 4Eh swaps the 128-bit halves of each half, 00h replicates
element 0 of each half. -/
def Obligations.NamedImmediatesPermuteAsStated : Prop :=
  ∀ (vl : VLen) (t : BitVec vl.bits) (h j : Nat), h < vl.kl / 4 → j < 4 →
    permImm 0xE4 t = t ∧
    qword (permImm 0x1B t) (4 * h + j) = qword t (4 * h + (3 - j)) ∧
    qword (permImm 0x4E t) (4 * h + j) = qword t (4 * h + (j + 2) % 4) ∧
    qword (permImm 0x00 t) (4 * h + j) = qword t (4 * h)

/-- R109(c): immediates compose by indexing. -/
def Obligations.ImmediatesCompose : Prop :=
  ∀ (vl : VLen) (t : BitVec vl.bits) (p q r : BitVec 8),
    (∀ j, j < 4 → immSelector r j = immSelector p (immSelector q j)) →
    permImm q (permImm p t) = permImm r t

/-- R109(d): with broadcast the immediate does not matter. -/
def Obligations.BroadcastIgnoresTheImmediate : Prop :=
  ∀ (s : State) (dst : VReg) (m : MemRef) (p q : BitVec 8) (mask : KReg) (z : Bool),
    exec (.vpermqEvex256Imm dst (.mem m) p mask z true) s = exec (.vpermqEvex256Imm dst (.mem m) q mask z true) s ∧
    exec (.vpermqEvex512Imm dst (.mem m) p mask z true) s = exec (.vpermqEvex512Imm dst (.mem m) q mask z true) s

/-- R109(e): when the four selectors are pairwise distinct every source element of the low half appears in the
result; otherwise some element is dropped (told apart by an operand with distinct elements). -/
def Obligations.DistinctSelectorsLoseNothing : Prop :=
  ∀ (imm8 : BitVec 8),
    (∀ j l, j < 4 → l < 4 → immSelector imm8 j = immSelector imm8 l → j = l) ↔
      ∀ (t : BitVec VLen.vl256.bits) (e : Nat), e < 4 → ∃ j, j < 4 ∧ qword (permImm imm8 t) j = qword t e

/-- R123(a): the index 0, 1, .. is the identity. -/
def Obligations.IdentityIndexIsIdentity : Prop :=
  ∀ (vl : VLen) (x t : BitVec vl.bits), (∀ j, j < vl.kl → (qword x j).toNat = j) → permVec x t = t

/-- R123(b): every immediate permutation is a vector permutation. -/
def Obligations.ImmediatePermutationsAreVectorPermutations : Prop :=
  ∀ (vl : VLen) (x t : BitVec vl.bits) (imm8 : BitVec 8),
    (∀ j, j < vl.kl → (qword x j).toNat = 4 * (j / 4) + immSelector imm8 (j % 4)) → permVec x t = permImm imm8 t

/-- R123(d): index vectors compose by permuting the inner index vector with the outer one. -/
def Obligations.IndexVectorsCompose : Prop :=
  ∀ (vl : VLen) (x y t : BitVec vl.bits), permVec x (permVec y t) = permVec (permVec x y) t

/-! ### The whole machine -/

/-- Every step keeps the invariant: admitted configuration, canonical memory, registers within MAXVL and KW bits. -/
def Obligations.StepKeepsTheInvariant : Prop :=
  ∀ s t : State, s.Inv → step s = .next t → t.Inv

/-- The invariant holds at reset. -/
def Obligations.ResetMeetsTheInvariant : Prop := State.reset.Inv

/-- R47: no form writes memory, and memory is constant over a run. -/
def Obligations.MemoryIsConstantOverARun : Prop :=
  (∀ (i : Instr) (s t : State), exec i s = .next t → t.mem = s.mem) ∧
    ∀ (n : Nat) (s t : State), Sys2Proof.core.run n s = .next t → t.mem = s.mem

/-- R22, R24, R26: over any run the opmask registers, the general registers and the configuration keep their launch
values. -/
def Obligations.MasksAndGeneralRegistersAreConstantOverARun : Prop :=
  ∀ (n : Nat) (s t : State), Sys2Proof.core.run n s = .next t →
    t.k = s.k ∧ t.x = s.x ∧ t.cfg = s.cfg ∧ t.pEnd = s.pEnd

/-- R23, R162: control falls through. After `n` completed steps `pc` has moved on by between 6 and 12 bytes a
step (modulo `2^64`). -/
def Obligations.ControlFallsThrough : Prop :=
  ∀ (n : Nat) (s t : State), Sys2Proof.core.run n s = .next t →
    ∃ d : Nat, 6 * n ≤ d ∧ d ≤ 12 * n ∧ t.pc = s.pc + BitVec.ofNat 64 d

/-- What the launch state holds (R29: the spec gives no value for a register): the configuration is R5's default with
R161's premises; the zeros, the pc FFFFFFF0h and the empty memory are the model's choices (log entries 3 to 8). -/
def Obligations.ResetValues : Prop :=
  (∀ n, readV State.reset n = 0#512) ∧ (∀ n, readK State.reset n = 0#64) ∧ (∀ n, readX State.reset n = 0#64) ∧
    State.reset.pc = 0xFFFFFFF0#64 ∧ (∀ a, readByte State.reset.mem a = 0#8) ∧ State.reset.pEnd = none ∧
    State.reset.cfg.maxvl = .w512 ∧ (∀ f, State.reset.cfg.supports f = true) ∧ State.reset.Runs ∧
    ∀ a, readable State.reset.cfg a = none

/-- R146, R141: the fault that an exception ends the run in names the exception, the `pc` of the instruction and the
address of a memory fault; its vector and error code are those of R141's table. -/
def Obligations.ExceptionsNameTheirCause : Prop :=
  ∀ (s : State) (code : Nat) (a : Addr),
    takeException .ud s = .fault (.ud s.pc) ∧
    takeException (.memory (.pf code) a) s = .fault (.pageFault code a s.pc) ∧
    takeException (.memory .gp0 a) s = .fault (.generalProtection a s.pc) ∧
    takeException (.memory .ss0 a) s = .fault (.stackFault a s.pc) ∧
    (Fault.ud s.pc).vector = 6 ∧ (Fault.ud s.pc).errorCode = none ∧
    (Fault.stackFault a s.pc).vector = 12 ∧ (Fault.stackFault a s.pc).errorCode = some 0 ∧
    (Fault.generalProtection a s.pc).vector = 13 ∧ (Fault.generalProtection a s.pc).errorCode = some 0 ∧
    (Fault.pageFault code a s.pc).vector = 14 ∧ (Fault.pageFault code a s.pc).errorCode = some code
end

