-- ==== Sys2Proof/Laws/Decode.lean ====
section
/-! SUPPORT. The decoder's parts undo the encoder's parts: field extraction from an appended byte, displacements,
and the ModRM:r/m operand. -/

namespace Sys2Proof

/-- The four bytes of a 32-bit value, put together again. -/
theorem take32_leBytes32 (d : BitVec 32) (rest : List Byte) : take32 (leBytes32 d ++ rest) = some (d, rest) := by
  have h : (d.extractLsb' 24 8 ++ d.extractLsb' 16 8 ++ d.extractLsb' 8 8 ++ d.extractLsb' 0 8 : BitVec 32) = d := by
    apply BitVec.eq_of_getLsbD_eq
    intro i hi
    simp only [BitVec.getLsbD_append, BitVec.getLsbD_extractLsb']
    by_cases h0 : i < 8
    · simp [h0]
    by_cases h1 : i - 8 < 8
    · have : 8 + (i - 8) = i := by omega
      simp [h0, h1, this]
    by_cases h2 : i - 8 - 8 < 8
    · have : 16 + (i - 8 - 8) = i := by omega
      simp [h0, h1, h2, this]
    · have : 24 + (i - 8 - 8 - 8) = i := by omega
      have h3 : i - 8 - 8 - 8 < 8 := by omega
      simp [h0, h1, h2, h3, this]
  simp [take32, leBytes32, h]

/-- A displacement's `mod` and bytes give the displacement. -/
theorem takeDisp_bytes (d : Disp) (rest : List Byte) : takeDisp d.modBits (d.bytes ++ rest) = some (d, rest) := by
  cases d with
  | absent => rfl
  | disp8 d => rfl
  | disp32 d => simp [takeDisp, Disp.modBits, Disp.bytes, take32_leBytes32]

/-- The fields of a ModRM or SIB byte (R65, R66). -/
theorem byte_fields (md : BitVec 2) (r m : BitVec 3) :
    (md ++ r ++ m : Byte).extractLsb' 6 2 = md ∧ (md ++ r ++ m : Byte).extractLsb' 3 3 = r ∧
      (md ++ r ++ m : Byte).extractLsb' 0 3 = m := by
  revert md r m; decide

/-- A register number from its high bit and low three bits. -/
theorem greg_split (g : GReg) : g.extractLsb' 3 1 ++ g.extractLsb' 0 3 = g := by revert g; decide

theorem vreg_split (n : VReg) : n.extractLsb' 4 1 ++ n.extractLsb' 3 1 ++ n.extractLsb' 0 3 = n := by
  revert n; decide

/-- The displacement's `mod` is not that of a register, and is 00 exactly for no displacement. -/
theorem modBits_ne (d : Disp) : d.modBits ≠ 0b11#2 := by cases d <;> simp [Disp.modBits]

theorem modBits_zero {d : Disp} (h : d.modBits = 0b00#2) : d.present = false := by
  cases d
  · rfl
  · simp [Disp.modBits] at h
  · simp [Disp.modBits] at h

/-- The ModRM byte the encoder writes for a source (R65). -/
def modrmOf (reg : BitVec 3) : Src → Byte
  | .reg n => 0b11#2 ++ reg ++ n.extractLsb' 0 3
  | .mem (.ripRel _) => 0b00#2 ++ reg ++ 0b101#3
  | .mem (.base b d) => d.modBits ++ reg ++ b.extractLsb' 0 3
  | .mem (.sib _ _ _ d) => d.modBits ++ reg ++ 0b100#3
  | .mem (.sibNoBase _ _ _) => 0b00#2 ++ reg ++ 0b100#3

/-- The encoder's source bytes are the ModRM byte and a tail. -/
theorem encodeSrc_eq (reg : BitVec 3) (src : Src) :
    ∃ tail, encodeSrc reg src = modrmOf reg src :: tail := by
  cases src with
  | reg n => exact ⟨_, rfl⟩
  | mem m => cases m <;> exact ⟨_, rfl⟩

/-- ModRM:reg of that byte is the destination's low bits. -/
theorem modrmOf_reg (reg : BitVec 3) (src : Src) : (modrmOf reg src).extractLsb' 3 3 = reg := by
  cases src with
  | reg n => exact (byte_fields ..).2.1
  | mem m => cases m <;> exact (byte_fields ..).2.1

/-- `mod = 11` of that byte says that the source is a register. -/
theorem modrmOf_mod (reg : BitVec 3) (src : Src) :
    (modrmOf reg src).extractLsb' 6 2 = 0b11#2 ↔ src.isMem = false := by
  cases src with
  | reg n => simp [modrmOf, (byte_fields ..).1, Src.isMem]
  | mem m => cases m <;> simp [modrmOf, (byte_fields ..).1, Src.isMem, modBits_ne]

/-- Reading the ModRM:r/m operand of a well-formed source gives it back (R65, R66, R69): under EVEX with X as bit 4 of
a register, under VEX with 0 where the register is below 16. -/
theorem takeSrc_encodeSrc {reg : BitVec 3} {src : Src} {tail rest : List Byte} {x4 : BitVec 1}
    (hw : src.wellFormed = true) (hx : src.isMem = false → x4 = src.xBit)
    (he : encodeSrc reg src = modrmOf reg src :: tail) :
    takeSrc x4 src.xBit src.bBit (modrmOf reg src) (tail ++ rest) = some (src, rest) := by
  cases src with
  | reg n =>
    obtain rfl : tail = [] := by simpa [encodeSrc, modrmOf] using he.symm
    have := hx rfl
    subst this
    simp [takeSrc, modrmOf, byte_fields, Src.xBit, Src.bBit, vreg_split]
  | mem m =>
    cases m with
    | ripRel d =>
      obtain rfl : tail = leBytes32 d := by simpa [encodeSrc, modrmOf] using he.symm
      simp [takeSrc, modrmOf, byte_fields, take32_leBytes32]
    | base b d =>
      obtain rfl : tail = d.bytes := by simpa [encodeSrc, modrmOf] using he.symm
      simp only [Src.wellFormed, MemRef.wellFormed, Bool.and_eq_true, Bool.or_eq_true, bne_iff_ne] at hw
      have h5 : ¬ (d.modBits = 0b00#2 ∧ b.extractLsb' 0 3 = 0b101#3) := by
        rintro ⟨h, h'⟩
        rcases hw.2 with h2 | h2
        · exact h2 h'
        · rw [modBits_zero h] at h2; exact absurd h2 (by decide)
      simp [takeSrc, modrmOf, byte_fields, modBits_ne, hw.1, h5, takeDisp_bytes, Src.bBit, greg_split]
    | sib ss ix b d =>
      obtain rfl : tail = (ss ++ ix.extractLsb' 0 3 ++ b.extractLsb' 0 3) :: d.bytes := by
        simpa [encodeSrc, modrmOf] using he.symm
      simp only [Src.wellFormed, MemRef.wellFormed, Bool.or_eq_true, bne_iff_ne] at hw
      have h5 : ¬ (d.modBits = 0b00#2 ∧ b.extractLsb' 0 3 = 0b101#3) := by
        rintro ⟨h, h'⟩
        rcases hw with h2 | h2
        · exact h2 h'
        · rw [modBits_zero h] at h2; exact absurd h2 (by decide)
      simp [takeSrc, takeSib, modrmOf, byte_fields, modBits_ne, h5, takeDisp_bytes, Src.bBit, Src.xBit, greg_split]
    | sibNoBase ss ix d =>
      obtain rfl : tail = (ss ++ ix.extractLsb' 0 3 ++ 0b101#3) :: leBytes32 d := by
        simpa [encodeSrc, modrmOf] using he.symm
      simp [takeSrc, takeSib, modrmOf, byte_fields, take32_leBytes32, Src.xBit, greg_split]

end Sys2Proof
end

