-- ==== Sys2Proof/Laws/Elements.lean ====
section
/-! SUPPORT. Vectors as sequences of quadwords (R6): what each element of a built vector is, and equality by
elements. -/

namespace Sys2Proof.Machine

/-- Bit `i` of element `n` is bit `64 n + i` of the vector. -/
theorem getLsbD_qword {w : Nat} (v : BitVec w) (n : Nat) {i : Nat} (hi : i < 64) :
    (qword v n).getLsbD i = v.getLsbD (64 * n + i) := by
  simp [qword, hi]

/-- Element 0 of an append is its low quadword. -/
theorem qword_append_zero {w : Nat} (a : BitVec w) (b : Qword) : qword (a ++ b) 0 = b := by
  apply BitVec.eq_of_getLsbD_eq
  intro i hi
  rw [getLsbD_qword _ _ hi, BitVec.getLsbD_append]
  simp [hi]

/-- Element `j + 1` of an append is element `j` of the high part. -/
theorem qword_append_succ {w : Nat} (a : BitVec w) (b : Qword) (j : Nat) :
    qword (a ++ b) (j + 1) = qword a j := by
  apply BitVec.eq_of_getLsbD_eq
  intro i hi
  have h1 : ¬ 64 * (j + 1) + i < 64 := by omega
  have h2 : 64 * (j + 1) + i - 64 = 64 * j + i := by omega
  rw [getLsbD_qword _ _ hi, getLsbD_qword _ _ hi, BitVec.getLsbD_append]
  simp only [h1, h2, if_false]

/-- Element `j` of a built vector is `f j`. -/
theorem qword_ofQwords {n : Nat} (f : Nat → Qword) {j : Nat} (h : j < n) : qword (ofQwords f n) j = f j := by
  induction n generalizing f j with
  | zero => omega
  | succ n ih =>
    cases j with
    | zero => exact qword_append_zero ..
    | succ j => exact (qword_append_succ ..).trans (ih (fun i => f (i + 1)) (by omega))

/-- Two vectors with the same elements are equal. -/
theorem eq_of_qwords {n : Nat} {a b : BitVec (64 * n)} (h : ∀ j, j < n → qword a j = qword b j) : a = b := by
  apply BitVec.eq_of_getLsbD_eq
  intro i hi
  have hj := congrArg (fun q => q.getLsbD (i % 64)) (h (i / 64) (by omega))
  have hlt : i % 64 < 64 := Nat.mod_lt _ (by decide)
  simpa only [getLsbD_qword _ _ hlt, Nat.div_add_mod] using hj

/-- The elements of the low `64 * n` bits are those of the whole. -/
theorem qword_low {w n j : Nat} (v : BitVec w) (h : j < n) : qword (v.extractLsb' 0 (64 * n)) j = qword v j := by
  apply BitVec.eq_of_getLsbD_eq
  intro i hi
  have : 64 * j + i < 64 * n := by omega
  rw [getLsbD_qword _ _ hi, getLsbD_qword _ _ hi]
  simp [this]

/-- The elements of a wider or narrower copy that keeps at least `n` elements. -/
theorem qword_setWidth {w n j : Nat} (v : BitVec w) {u : Nat} (hu : 64 * n ≤ u) (h : j < n) :
    qword (v.setWidth u) j = qword v j := by
  apply BitVec.eq_of_getLsbD_eq
  intro i hi
  have : 64 * j + i < u := by omega
  rw [getLsbD_qword _ _ hi, getLsbD_qword _ _ hi]
  simp [this]

end Sys2Proof.Machine
end

