-- ==== Sys2Proof/Laws/State.lean ====
section
/-! SUPPORT. One lemma per field per update of the state, and the register read laws. -/

namespace Sys2Proof.Machine

section writeV
variable (s : State) (n : VReg) (v : BitVec 512)
@[simp] theorem writeV_k : (writeV s n v).k = s.k := rfl
@[simp] theorem writeV_x : (writeV s n v).x = s.x := rfl
@[simp] theorem writeV_pc : (writeV s n v).pc = s.pc := rfl
@[simp] theorem writeV_mem : (writeV s n v).mem = s.mem := rfl
@[simp] theorem writeV_pEnd : (writeV s n v).pEnd = s.pEnd := rfl
@[simp] theorem writeV_cfg : (writeV s n v).cfg = s.cfg := rfl
end writeV

section writeDest
variable {vl : VLen} (s : State) (n : VReg) (r : BitVec vl.bits)
@[simp] theorem writeDest_k : (writeDest s n r).k = s.k := rfl
@[simp] theorem writeDest_x : (writeDest s n r).x = s.x := rfl
@[simp] theorem writeDest_pc : (writeDest s n r).pc = s.pc := rfl
@[simp] theorem writeDest_mem : (writeDest s n r).mem = s.mem := rfl
@[simp] theorem writeDest_pEnd : (writeDest s n r).pEnd = s.pEnd := rfl
@[simp] theorem writeDest_cfg : (writeDest s n r).cfg = s.cfg := rfl
end writeDest

section writeX
variable (s : State) (i : GReg) (v : Addr)
@[simp] theorem writeX_v : (writeX s i v).v = s.v := rfl
@[simp] theorem writeX_k : (writeX s i v).k = s.k := rfl
@[simp] theorem writeX_pc : (writeX s i v).pc = s.pc := rfl
@[simp] theorem writeX_mem : (writeX s i v).mem = s.mem := rfl
@[simp] theorem writeX_pEnd : (writeX s i v).pEnd = s.pEnd := rfl
@[simp] theorem writeX_cfg : (writeX s i v).cfg = s.cfg := rfl
end writeX

section setPc
variable (s : State) (t : Addr)
@[simp] theorem setPc_v : (setPc s t).v = s.v := rfl
@[simp] theorem setPc_k : (setPc s t).k = s.k := rfl
@[simp] theorem setPc_x : (setPc s t).x = s.x := rfl
@[simp] theorem setPc_pc : (setPc s t).pc = t := rfl
@[simp] theorem setPc_mem : (setPc s t).mem = s.mem := rfl
@[simp] theorem setPc_pEnd : (setPc s t).pEnd = s.pEnd := rfl
@[simp] theorem setPc_cfg : (setPc s t).cfg = s.cfg := rfl
end setPc

section advancePc
variable (s : State) (len : Nat)
@[simp] theorem advancePc_v : (advancePc s len).v = s.v := rfl
@[simp] theorem advancePc_k : (advancePc s len).k = s.k := rfl
@[simp] theorem advancePc_x : (advancePc s len).x = s.x := rfl
@[simp] theorem advancePc_pc : (advancePc s len).pc = s.pc + BitVec.ofNat 64 len := rfl
@[simp] theorem advancePc_mem : (advancePc s len).mem = s.mem := rfl
@[simp] theorem advancePc_pEnd : (advancePc s len).pEnd = s.pEnd := rfl
@[simp] theorem advancePc_cfg : (advancePc s len).cfg = s.cfg := rfl
@[simp] theorem readV_advancePc (n : VReg) : readV (advancePc s len) n = readV s n := rfl
end advancePc

/-- A register just written holds what was written. -/
@[simp] theorem readV_writeV_self (s : State) (n : VReg) (v : BitVec 512) : readV (writeV s n v) n = v := by
  simp [readV, writeV]

/-- Writing one vector register leaves the others alone. -/
theorem readV_writeV_ne (s : State) {n m : VReg} (v : BitVec 512) (h : m ≠ n) :
    readV (writeV s n v) m = readV s m := by
  have h' : n.toNat ≠ m.toNat := fun e => h (BitVec.eq_of_toNat_eq e.symm)
  simp [readV, writeV, Vector.getElem_set_ne _ _ h']

/-- A general register just written holds what was written. -/
@[simp] theorem readX_writeX_self (s : State) (i : GReg) (v : Addr) : readX (writeX s i v) i = v := by
  simp [readX, writeX]

/-- Writing one general register leaves the others alone. -/
theorem readX_writeX_ne (s : State) {i j : GReg} (v : Addr) (h : j ≠ i) : readX (writeX s i v) j = readX s j := by
  have h' : i.toNat ≠ j.toNat := fun e => h (BitVec.eq_of_toNat_eq e.symm)
  simp [readX, writeX, Vector.getElem_set_ne _ _ h']

/-- The destination holds the zero-extended result. -/
@[simp] theorem readV_writeDest_self {vl : VLen} (s : State) (n : VReg) (r : BitVec vl.bits) :
    readV (writeDest s n r) n = r.setWidth 512 := readV_writeV_self ..

theorem readV_writeDest_ne {vl : VLen} (s : State) {n m : VReg} (r : BitVec vl.bits) (h : m ≠ n) :
    readV (writeDest s n r) m = readV s m := readV_writeV_ne s _ h

end Sys2Proof.Machine
end

