-- ==== Sys2Proof/Laws/Exec.lean ====
section
/-! SUPPORT. What the shared operations can do, said once: `memRead`, `fetchSrc`, `withForm`, `permuteInto`, and
the five meanings as one `permuteInto`. -/

namespace Sys2Proof.Machine

/-- No unreadable byte in a list: every one is readable. -/
theorem lowestUnreadable_none {c : Config} {as : List Addr} :
    lowestUnreadable c as = none ↔ ∀ a ∈ as, readable c a = none := by
  induction as with
  | nil => simp [lowestUnreadable]
  | cons a as ih =>
    simp only [lowestUnreadable, List.mem_cons, forall_eq_or_imp, ← ih]
    cases readable c a with
    | none => simp
    | some f =>
      cases lowestUnreadable c as with
      | none => simp
      | some p => obtain ⟨b, g⟩ := p; by_cases h : a ≤ b <;> simp [h]

/-- The unreadable byte found has the lowest address. -/
theorem lowestUnreadable_some {c : Config} {as : List Addr} {a : Addr} {f : MemFault}
    (h : lowestUnreadable c as = some (a, f)) : LowestFault c as a f := by
  induction as generalizing a f with
  | nil => simp [lowestUnreadable] at h
  | cons x as ih =>
    simp only [lowestUnreadable] at h
    split at h
    · next hx =>
      obtain ⟨hm, hf, hl⟩ := ih h
      refine ⟨List.mem_cons_of_mem _ hm, hf, fun b hb hn => ?_⟩
      rcases List.mem_cons.1 hb with rfl | hb
      · exact absurd hx hn
      · exact hl b hb hn
    · next g hx hr =>
      obtain ⟨rfl, rfl⟩ := Prod.mk.injEq .. ▸ Option.some.inj h
      refine ⟨List.mem_cons_self .., hx, fun b hb hn => ?_⟩
      rcases List.mem_cons.1 hb with rfl | hb
      · exact BitVec.le_refl _
      · exact absurd (lowestUnreadable_none.1 hr b hb) hn
    · next g y k hx hr =>
      obtain ⟨hm, hf, hl⟩ := ih hr
      split at h
      · next hle =>
        obtain ⟨rfl, rfl⟩ := Prod.mk.injEq .. ▸ Option.some.inj h
        refine ⟨List.mem_cons_self .., hx, fun b hb hn => ?_⟩
        rcases List.mem_cons.1 hb with rfl | hb
        · exact BitVec.le_refl _
        · exact BitVec.le_trans hle (hl b hb hn)
      · next hle =>
        obtain ⟨rfl, rfl⟩ := Prod.mk.injEq .. ▸ Option.some.inj h
        refine ⟨List.mem_cons_of_mem _ hm, hf, fun b hb hn => ?_⟩
        rcases List.mem_cons.1 hb with rfl | hb
        · exact (BitVec.le_total b y).resolve_left hle
        · exact hl b hb hn

/-- A memory exception ends the run in the fault it names. -/
theorem takeException_memory (f : MemFault) (a : Addr) (s : State) :
    takeException (.memory f a) s = .fault (memoryFault f a s.pc) := by
  cases f <;> rfl

@[simp] theorem takeException_ud (s : State) : takeException .ud s = .fault (.ud s.pc) := rfl

/-- `MemRead` is either the bytes of a readable range or the fault of its lowest unreadable byte. -/
theorem memRead_cases (s : State) (a : Addr) (n : Nat) :
    (memRead s a n = .ok (readBytes s.mem a n) ∧ ∀ b ∈ addrRange a n, readable s.cfg b = none) ∨
      ∃ b f, memRead s a n = .error (.memory f b) ∧ LowestFault s.cfg (addrRange a n) b f := by
  unfold memRead
  cases h : lowestUnreadable s.cfg (addrRange a n) with
  | none => exact .inl ⟨rfl, lowestUnreadable_none.1 h⟩
  | some p => exact .inr ⟨p.1, p.2, rfl, lowestUnreadable_some h⟩

/-- `sourceReadable`, spelled out. -/
theorem sourceReadable_iff {f : Form} {src : Src} {bcst : Bool} {s : State} :
    sourceReadable f src bcst s = true ↔ ∀ a ∈ operandAddrs f src bcst s, readable s.cfg a = none := by
  simp [sourceReadable]

/-- `FetchSrc` succeeds on a readable operand and otherwise raises the fault of its lowest unreadable byte. -/
theorem fetchSrc_cases (f : Form) (src : Src) (bcst : Bool) (s : State) :
    ((∃ t, fetchSrc f src bcst s = .ok t) ∧ sourceReadable f src bcst s = true) ∨
      (sourceReadable f src bcst s = false ∧ ∃ a e, fetchSrc f src bcst s = .error (.memory e a) ∧
        LowestFault s.cfg (operandAddrs f src bcst s) a e) := by
  have stops {as : List Addr} {a : Addr} {e : MemFault} (h : LowestFault s.cfg as a e) :
      ¬ ∀ b ∈ as, readable s.cfg b = none := fun H => by simpa [H a h.1] using h.2.1
  cases src with
  | reg n => exact .inl ⟨⟨_, rfl⟩, rfl⟩
  | mem m =>
    cases bcst with
    | true =>
      rcases memRead_cases s (operandAddress f true s m) 8 with ⟨h, hr⟩ | ⟨b, e, h, hl⟩
      · exact .inl ⟨⟨_, by simp only [fetchSrc, h]; rfl⟩, sourceReadable_iff.2 hr⟩
      · exact .inr ⟨by rw [Bool.eq_false_iff, ne_eq, sourceReadable_iff]; exact stops hl, b, e,
          by simp only [fetchSrc, h]; rfl, hl⟩
    | false =>
      rcases memRead_cases s (operandAddress f false s m) (8 * f.vl.kl) with ⟨h, hr⟩ | ⟨b, e, h, hl⟩
      · exact .inl ⟨⟨_, by simp only [fetchSrc, h]; rfl⟩, sourceReadable_iff.2 hr⟩
      · exact .inr ⟨by rw [Bool.eq_false_iff, ne_eq, sourceReadable_iff]; exact stops hl, b, e,
          by simp only [fetchSrc, h]; rfl, hl⟩

/-- A form that may run runs its body. -/
theorem withForm_runs {f : Form} {s : State} (h : FormRuns f s) (body : StepResult) : withForm f s body = body := by
  simp [withForm, h.1, h.2]

/-- Everything `withForm` can do. -/
theorem withForm_cases (f : Form) (s : State) (body : StepResult) :
    (FormRuns f s ∧ withForm f s body = body) ∨
      (s.cfg.stateEnabled = true ∧ s.cfg.supports f = false ∧ withForm f s body = .fault (.ud s.pc)) ∨
      (s.cfg.stateEnabled = false ∧ withForm f s body = .refused .stateNotEnabled) := by
  unfold withForm
  cases he : s.cfg.stateEnabled <;> cases hs : s.cfg.supports f <;> simp [FormRuns, he, hs]

/-- Everything one execution can do: it completes with its operand fetched, faults on the operand, or does not
run. -/
theorem permuteInto_cases (f : Form) (dst : VReg) (src : Src) (mask : KReg) (z b : Bool)
    (perm : BitVec f.vl.bits → BitVec f.vl.bits) (s : State) :
    (FormRuns f s ∧ sourceReadable f src b s = true ∧ ∃ t, fetchSrc f src b s = .ok t ∧
      permuteInto f dst src mask z b perm s =
        .next (advancePc (writeDest s dst (applyMask s mask z (readVL f.vl s dst) (perm t))) (instrLength f src))) ∨
    (FormRuns f s ∧ sourceReadable f src b s = false ∧ ∃ a e, LowestFault s.cfg (operandAddrs f src b s) a e ∧
      permuteInto f dst src mask z b perm s = .fault (memoryFault e a s.pc)) ∨
    (s.cfg.stateEnabled = true ∧ s.cfg.supports f = false ∧
      permuteInto f dst src mask z b perm s = .fault (.ud s.pc)) ∨
    (s.cfg.stateEnabled = false ∧ permuteInto f dst src mask z b perm s = .refused .stateNotEnabled) := by
  unfold permuteInto
  rcases withForm_cases f s (permuteFetched f dst src mask z perm s (fetchSrc f src b s)) with
    ⟨hr, h⟩ | ⟨he, hs, h⟩ | ⟨he, h⟩
  · rcases fetchSrc_cases f src b s with ⟨⟨t, ht⟩, hs⟩ | ⟨hs, a, e, ht, hl⟩
    · exact .inl ⟨hr, hs, t, ht, by rw [h, ht]; rfl⟩
    · exact .inr (.inl ⟨hr, hs, a, e, hl, by rw [h, ht]; exact takeException_memory e a s⟩)
  · exact .inr (.inr (.inl ⟨he, hs, h⟩))
  · exact .inr (.inr (.inr ⟨he, h⟩))

/-- The permutation an instruction applies to its data. -/
def Instr.perm (i : Instr) (s : State) : BitVec i.form.vl.bits → BitVec i.form.vl.bits :=
  match i with
  | .vpermqVex256Imm _ _ imm8 => permImm imm8
  | .vpermqEvex256Imm _ _ imm8 _ _ _ => permImm imm8
  | .vpermqEvex512Imm _ _ imm8 _ _ _ => permImm imm8
  | .vpermqEvex256Vec _ idx _ _ _ _ => permVec (readVL .vl256 s idx)
  | .vpermqEvex512Vec _ idx _ _ _ _ => permVec (readVL .vl512 s idx)

/-- Every instruction is one `permuteInto` of its own fields. -/
theorem exec_eq_permuteInto (i : Instr) (s : State) :
    exec i s = permuteInto i.form i.dst i.src i.mask i.zeroing i.bcst (Instr.perm i s) s := by
  cases i <;> rfl

end Sys2Proof.Machine
end

