-- ==== Sys2Proof/Laws/Memory.lean ====
section
/-! SUPPORT. Memory: every operation keeps the canonical form, a read after a write to the same address gives
what was written, and a write leaves every other address alone. -/

namespace Sys2Proof.Machine

/-- Writing a cell at or above `lo` keeps the canonical form from `lo` up. -/
theorem writeCell_wfFrom {m : Memory} {lo a : Nat} (b : Byte) (hm : wfFrom lo m = true) (hlo : lo ≤ a)
    (ha : a < 2 ^ 64) : wfFrom lo (writeCell m a b) = true := by
  induction m generalizing lo with
  | nil => by_cases hb : b = unlistedByte <;> simp_all [writeCell, wfFrom]
  | cons kc m ih =>
    obtain ⟨k, c⟩ := kc
    simp only [wfFrom, Bool.and_eq_true, decide_eq_true_eq] at hm
    obtain ⟨⟨⟨hk, hk'⟩, hc⟩, hm⟩ := hm
    have hend (l : Nat) (hl : l ≤ k) : wfFrom l ((k, c) :: m) = true := by
      simp only [wfFrom, Bool.and_eq_true, decide_eq_true_eq]
      exact ⟨⟨⟨hl, hk'⟩, hc⟩, hm⟩
    have hput (l : Nat) (m' : Memory) (hl : l ≤ a) (hb : b ≠ unlistedByte) (h : wfFrom (a + 1) m' = true) :
        wfFrom l ((a, b) :: m') = true := by
      simp only [wfFrom, Bool.and_eq_true, decide_eq_true_eq, bne_iff_ne]
      exact ⟨⟨⟨hl, ha⟩, hb⟩, h⟩
    simp only [writeCell]
    split
    · split
      · exact hend lo hk
      · next h hb => exact hput lo _ hlo hb (hend _ h)
    · split
      · next h =>
        subst h
        split
        · cases m with
          | nil => rfl
          | cons jd m =>
            simp only [wfFrom, Bool.and_eq_true, decide_eq_true_eq] at hm ⊢
            exact ⟨⟨⟨by omega, hm.1.1.2⟩, hm.1.2⟩, hm.2⟩
        · next hb => exact hput lo m hlo hb hm
      · simp only [wfFrom, Bool.and_eq_true, decide_eq_true_eq]
        exact ⟨⟨⟨hk, hk'⟩, hc⟩, ih hm (by omega)⟩

/-- Writing a byte keeps the canonical form. -/
theorem writeByte_wf {m : Memory} (a : Addr) (b : Byte) (hm : Memory.wf m = true) :
    Memory.wf (writeByte m a b) = true := writeCell_wfFrom b hm (Nat.zero_le _) a.isLt

/-- Writing a list of bytes keeps the canonical form. -/
theorem writeList_wf {m : Memory} (a : Addr) (bs : List Byte) (hm : Memory.wf m = true) :
    Memory.wf (writeList m a bs) = true := by
  induction bs generalizing m a with
  | nil => exact hm
  | cons b bs ih => exact ih _ (writeByte_wf a b hm)

/-- `MemWrite` keeps the canonical form. -/
theorem memWrite_wf {m : Memory} (a : Addr) (n : Nat) (v : BitVec (8 * n)) (hm : Memory.wf m = true) :
    Memory.wf (memWrite m a n v) = true := by
  induction n generalizing m a with
  | zero => exact hm
  | succ n ih => exact ih _ _ (writeByte_wf a _ hm)

/-- The reset memory is canonical. -/
theorem reset_mem_wf : Memory.wf State.reset.mem = true := rfl

/-- Below the lowest listed address every byte is the unlisted one. -/
theorem readCell_below {m : Memory} {lo a : Nat} (hm : wfFrom lo m = true) (ha : a < lo) :
    readCell m a = unlistedByte := by
  induction m generalizing lo with
  | nil => rfl
  | cons kc m ih =>
    obtain ⟨k, c⟩ := kc
    simp only [wfFrom, Bool.and_eq_true, decide_eq_true_eq] at hm
    have : a ≠ k := by omega
    simp [readCell, this, ih hm.2 (by omega : a < k + 1)]

/-- A read after a write to the same cell gives the byte written. -/
theorem readCell_writeCell_self {m : Memory} {lo : Nat} (a : Nat) (b : Byte) (hm : wfFrom lo m = true) :
    readCell (writeCell m a b) a = b := by
  induction m generalizing lo with
  | nil => by_cases hb : b = unlistedByte <;> simp [writeCell, readCell, hb]
  | cons kc m ih =>
    obtain ⟨k, c⟩ := kc
    simp only [wfFrom, Bool.and_eq_true, decide_eq_true_eq] at hm
    simp only [writeCell]
    split
    · next h =>
      have hak : a ≠ k := by omega
      split
      · next hb => simp [readCell, hak, hb, readCell_below hm.2 (by omega : a < k + 1)]
      · simp [readCell]
    · split
      · next h =>
        split
        · next hb => rw [hb]; exact readCell_below hm.2 (by omega)
        · simp [readCell]
      · next h => simp [readCell, h, ih hm.2]

/-- A write leaves every other cell alone. -/
theorem readCell_writeCell_ne (m : Memory) {a a' : Nat} (b : Byte) (h : a' ≠ a) :
    readCell (writeCell m a b) a' = readCell m a' := by
  induction m with
  | nil => by_cases hb : b = unlistedByte <;> simp [writeCell, readCell, hb, h]
  | cons kc m ih =>
    obtain ⟨k, c⟩ := kc
    simp only [writeCell]
    split
    · split
      · rfl
      · simp [readCell, h]
    · split
      · next hk => subst hk; split <;> simp [readCell, h]
      · simp [readCell, ih]

/-- A read after a write to the same address (the memory canonical). -/
theorem readByte_writeByte_self {m : Memory} (a : Addr) (b : Byte) (hm : Memory.wf m = true) :
    readByte (writeByte m a b) a = b := readCell_writeCell_self _ _ hm

/-- A write leaves every other address alone. -/
theorem readByte_writeByte_ne (m : Memory) {a a' : Addr} (b : Byte) (h : a' ≠ a) :
    readByte (writeByte m a b) a' = readByte m a' :=
  readCell_writeCell_ne m b fun e => h (BitVec.eq_of_toNat_eq e)

end Sys2Proof.Machine
end

