-- ==== Sys2Proof/Laws/PerInstr.lean ====
section
/-! SUPPORT. One lemma per constructor of Instr: the encoder writes as many bytes as R74's formula says, 6 to 12. -/

namespace Sys2Proof

/-- The displacement's bytes are its size. -/
theorem length_dispBytes (d : Disp) : d.bytes.length = d.size := by cases d <;> rfl

/-- ModRM, SIB and displacement are one byte and R74's `S + Dsz`. -/
theorem length_encodeSrc (reg : BitVec 3) (src : Src) : (encodeSrc reg src).length = 1 + src.extraSize := by
  cases src with
  | reg n => rfl
  | mem m =>
    cases m <;> simp [encodeSrc, Src.extraSize, leBytes32, length_dispBytes] <;> omega

/-- SIB and displacement together are at most five bytes. -/
theorem extraSize_le (src : Src) : src.extraSize ≤ 5 := by
  cases src with
  | reg n => exact Nat.zero_le 5
  | mem m =>
    cases m with
    | ripRel d => exact Nat.le_succ 4
    | base b d => cases d <;> simp [Src.extraSize, Disp.size]
    | sib ss ix b d => cases d <;> simp [Src.extraSize, Disp.size]
    | sibNoBase ss ix d => exact Nat.le_refl 5

namespace Laws.EncodedLength

/-- The encoding's length (R74): `len` bytes, between 6 and 12. -/
def Statement (i : Instr) : Prop := (encode i).length = i.length ∧ 6 ≤ i.length ∧ i.length ≤ 12

theorem vpermqVex256Imm (dst : VReg) (src : Src) (imm8 : BitVec 8) :
    Statement (.vpermqVex256Imm dst src imm8) := by
  have h := extraSize_le src
  simp [Statement, encode, length_encodeSrc, Instr.length, Instr.src, instrLength, Form.isVex, Form.hasImm]
  omega

theorem vpermqEvex256Imm (dst : VReg) (src : Src) (imm8 : BitVec 8) (mask : KReg) (z b : Bool) :
    Statement (.vpermqEvex256Imm dst src imm8 mask z b) := by
  have h := extraSize_le src
  simp [Statement, encode, encodeEvexImm, evexHead, length_encodeSrc, Instr.length, Instr.src, instrLength,
    Form.isVex, Form.hasImm]
  omega

theorem vpermqEvex512Imm (dst : VReg) (src : Src) (imm8 : BitVec 8) (mask : KReg) (z b : Bool) :
    Statement (.vpermqEvex512Imm dst src imm8 mask z b) := by
  have h := extraSize_le src
  simp [Statement, encode, encodeEvexImm, evexHead, length_encodeSrc, Instr.length, Instr.src, instrLength,
    Form.isVex, Form.hasImm]
  omega

theorem vpermqEvex256Vec (dst idx : VReg) (src : Src) (mask : KReg) (z b : Bool) :
    Statement (.vpermqEvex256Vec dst idx src mask z b) := by
  have h := extraSize_le src
  simp [Statement, encode, encodeEvexVec, evexHead, length_encodeSrc, Instr.length, Instr.src, instrLength,
    Form.isVex, Form.hasImm]
  omega

theorem vpermqEvex512Vec (dst idx : VReg) (src : Src) (mask : KReg) (z b : Bool) :
    Statement (.vpermqEvex512Vec dst idx src mask z b) := by
  have h := extraSize_le src
  simp [Statement, encode, encodeEvexVec, evexHead, length_encodeSrc, Instr.length, Instr.src, instrLength,
    Form.isVex, Form.hasImm]
  omega

end Laws.EncodedLength
end Sys2Proof
end

