-- ==== Sys2Proof/Tests/Slice0.lean ====
section
/-! SUPPORT. Tests. Expected results come from 95_test_vectors.md (the vector's name stands in each docstring), or
from the rule named. The witnesses at the end show that the hypotheses of each obligation can be met. -/

namespace Sys2Proof.Tests

open Sys2Proof.Machine

-- One declaration at a time: the kernel evaluations below each take a thread otherwise.
set_option Elab.async false

/-! ### WellFormed: one ill-formed term for each check -/

/-- VEX names no register above 15, as destination or source (R20). -/
theorem test_vex_register_range :
    (Instr.vpermqVex256Imm 16 (.reg 1) 0x1B).wellFormed = false ∧
    (Instr.vpermqVex256Imm 0 (.reg 16) 0x1B).wellFormed = false ∧
    (Instr.vpermqVex256Imm 15 (.reg 15) 0x1B).wellFormed = true := by decide

/-- No broadcast from a register (R73 row 7), no zeroing without a writemask (row 8). -/
theorem test_evex_fields :
    (Instr.vpermqEvex512Imm 0 (.reg 1) 0x1B 0 false true).wellFormed = false ∧
    (Instr.vpermqEvex256Vec 0 1 (.reg 2) 0 true false).wellFormed = false ∧
    (Instr.vpermqEvex512Vec 31 31 (.reg 31) 1 true false).wellFormed = true := by decide

/-- Base low bits 100 need SIB, low bits 101 a displacement, with or without SIB (R66). -/
theorem test_addressing_forms :
    (MemRef.base 12 (.disp8 0)).wellFormed = false ∧ (MemRef.base 13 .absent).wellFormed = false ∧
    (MemRef.sib 0 4 5 .absent).wellFormed = false ∧ (MemRef.base 13 (.disp8 0)).wellFormed = true := by decide

/-! ### Decoding -/

/-- E1, E3, E37: the VEX form from a register; the X bit plays no part. -/
theorem test_decode_vex_reg :
    decode Config.default [0xC4, 0xE3, 0xFD, 0x00, 0xC1, 0x1B] = .instr (.vpermqVex256Imm 0 (.reg 1) 0x1B) [] ∧
    decode Config.default [0xC4, 0x43, 0xFD, 0x00, 0xF8, 0xD8] = .instr (.vpermqVex256Imm 15 (.reg 8) 0xD8) [] ∧
    decode Config.default [0xC4, 0xA3, 0xFD, 0x00, 0xC1, 0x1B] = .instr (.vpermqVex256Imm 0 (.reg 1) 0x1B) [] := by
  decide

/-- E6, E7, E8, E9: the VEX form from memory: SIB with disp32, RIP-relative, r12 by SIB, r13 by disp8. -/
theorem test_decode_vex_mem :
    decode Config.default [0xC4, 0xE3, 0xFD, 0x00, 0x94, 0xCB, 0x00, 0x01, 0x00, 0x00, 0x39]
      = .instr (.vpermqVex256Imm 2 (.mem (.sib 3 1 3 (.disp32 0x100))) 0x39) [] ∧
    decode Config.default [0xC4, 0xE3, 0xFD, 0x00, 0x15, 0x10, 0x00, 0x00, 0x00, 0x39]
      = .instr (.vpermqVex256Imm 2 (.mem (.ripRel 0x10)) 0x39) [] ∧
    decode Config.default [0xC4, 0xC3, 0xFD, 0x00, 0x14, 0x24, 0x39]
      = .instr (.vpermqVex256Imm 2 (.mem (.sib 0 4 12 .absent)) 0x39) [] ∧
    decode Config.default [0xC4, 0xC3, 0xFD, 0x00, 0x55, 0x00, 0x39]
      = .instr (.vpermqVex256Imm 2 (.mem (.base 13 (.disp8 0))) 0x39) [] := by decide

/-- E12, E14, E22: the 256-bit EVEX immediate form: bit 4 of dst, zeroing, broadcast. -/
theorem test_decode_evex256_imm :
    decode Config.default [0x62, 0xE3, 0xFD, 0x28, 0x00, 0xC1, 0x1B]
      = .instr (.vpermqEvex256Imm 16 (.reg 1) 0x1B 0 false false) [] ∧
    decode Config.default [0x62, 0xF3, 0xFD, 0xA9, 0x00, 0xC1, 0x1B]
      = .instr (.vpermqEvex256Imm 0 (.reg 1) 0x1B 1 true false) [] ∧
    decode Config.default [0x62, 0xF3, 0xFD, 0x3A, 0x00, 0x58, 0xFF, 0x1B]
      = .instr (.vpermqEvex256Imm 3 (.mem (.base 0 (.disp8 0xFF))) 0x1B 2 false true) [] := by decide

/-- E16, E17, E20: the 512-bit EVEX immediate form. -/
theorem test_decode_evex512_imm :
    decode Config.default [0x62, 0xB3, 0xFD, 0x48, 0x00, 0xC1, 0x1B]
      = .instr (.vpermqEvex512Imm 0 (.reg 17) 0x1B 0 false false) [] ∧
    decode Config.default [0x62, 0xF3, 0xFD, 0xD9, 0x00, 0x08, 0x00]
      = .instr (.vpermqEvex512Imm 1 (.mem (.base 0 .absent)) 0x00 1 true true) [] ∧
    decode Config.default [0x62, 0xF3, 0xFD, 0x48, 0x00, 0x80, 0x41, 0x00, 0x00, 0x00, 0x1B]
      = .instr (.vpermqEvex512Imm 0 (.mem (.base 0 (.disp32 0x41))) 0x1B 0 false false) [] := by decide

/-- E28, E31, E33: the 256-bit vector form. -/
theorem test_decode_evex256_vec :
    decode Config.default [0x62, 0xF2, 0xF5, 0x28, 0x36, 0xD8]
      = .instr (.vpermqEvex256Vec 3 1 (.reg 0) 0 false false) [] ∧
    decode Config.default [0x62, 0x02, 0x85, 0x20, 0x36, 0xFF]
      = .instr (.vpermqEvex256Vec 31 31 (.reg 31) 0 false false) [] ∧
    decode Config.default [0x62, 0xF2, 0xF5, 0xBF, 0x36, 0x49, 0x02]
      = .instr (.vpermqEvex256Vec 1 1 (.mem (.base 1 (.disp8 2))) 7 true true) [] := by decide

/-- E27, E30, E35, E36: the 512-bit vector form. -/
theorem test_decode_evex512_vec :
    decode Config.default [0x62, 0xF2, 0xF5, 0xCA, 0x36, 0xD8]
      = .instr (.vpermqEvex512Vec 3 1 (.reg 0) 2 true false) [] ∧
    decode Config.default [0x62, 0x02, 0x8D, 0x40, 0x36, 0xFD]
      = .instr (.vpermqEvex512Vec 31 30 (.reg 29) 0 false false) [] ∧
    decode Config.default [0x62, 0xF2, 0xED, 0x48, 0x36, 0x0D, 0x00, 0x10, 0x00, 0x00]
      = .instr (.vpermqEvex512Vec 1 2 (.mem (.ripRel 0x1000)) 0 false false) [] ∧
    decode Config.default [0x62, 0x12, 0xB5, 0x48, 0x36, 0x44, 0xF5, 0xFF]
      = .instr (.vpermqEvex512Vec 8 9 (.mem (.sib 3 14 13 (.disp8 0xFF))) 0 false false) [] := by decide

/-- X17, X18: a clear feature flag is #UD. -/
theorem test_decode_feature_flags :
    decode { Config.default with hasAvx2 := false } [0xC4, 0xE3, 0xFD, 0x00, 0xC1, 0x1B] = .ud ∧
    decode { Config.default with hasAvx512f := false } [0x62, 0xF3, 0xFD, 0x28, 0x00, 0xC1, 0x1B] = .ud := by
  decide

/-- The encoder gives E2 and E34 byte for byte. -/
theorem test_encode :
    encode (.vpermqVex256Imm 9 (.reg 12) 0x4E) = [0xC4, 0x43, 0xFD, 0x00, 0xCC, 0x4E] ∧
    encode (.vpermqEvex512Vec 17 25 (.mem (.sib 2 9 2 (.disp32 0x7F8))) 7 true true)
      = [0x62, 0xA2, 0xB5, 0xD7, 0x36, 0x8C, 0x8A, 0xF8, 0x07, 0x00, 0x00] := by decide

/-- The length range of each row of the table: 6 to 11, 7 to 12, 6 to 11 (R74). -/
theorem test_lengths :
    (Instr.vpermqVex256Imm 0 (.reg 1) 0).length = 6 ∧
    (Instr.vpermqVex256Imm 0 (.mem (.sib 0 0 0 (.disp32 0))) 0).length = 11 ∧
    (Instr.vpermqEvex512Imm 0 (.mem (.sib 0 0 0 (.disp32 0))) 0 0 false false).length = 12 ∧
    (Instr.vpermqEvex256Vec 0 1 (.reg 2) 0 false false).length = 6 := by decide

/-- Table words have byte 0 most significant: E1; the head of E15; row 4's match; row 1's match, whose stored vvvv of
0000 is #UD (R72 row 2). -/
theorem test_table_word :
    decodeTableWord 48 0xC4E3FD00C11B = some (.vpermqVex256Imm 0 (.reg 1) 0x1B) ∧
    decodeTableWord 40 0x62F3FD4800 = some (.vpermqEvex512Imm 0 (.mem (.base 0 .absent)) 0 0 false false) ∧
    decodeTableWord 40 0x6202852036 = some (.vpermqEvex256Vec 24 31 (.mem (.base 8 .absent)) 0 false false) ∧
    decodeTableWord 32 0xC4038500 = none := by decide

/-! ### Effective addresses (95_test_vectors.md section 3: pc = 400000h, x[i] = 10000h * (i + 1)) -/

/-- The state of section 2 and 3: V[0] = D0.., V[1] = Q1.., the registers above; memory holds `bytes` at `pc`. -/
def at3 (bytes : List Byte) : State :=
  { State.reset with
    pc := 0x400000
    x := Vector.ofFn fun i : Fin 16 => BitVec.ofNat 64 (0x10000 * (i.val + 1))
    v := (State.reset.v.set 0 (ofQwords (fun j => 0xD0D0D0D0D0D0D000 + BitVec.ofNat 64 j) 8)).set 1
      (ofQwords (fun j => 0x1111111111111111 * BitVec.ofNat 64 (j + 1)) 8)
    mem := writeList [] 0x400000 bytes }

/-- E5, E6, E7, E10: no scaling under VEX; index times scale; the next instruction's address. -/
theorem test_addresses_vex :
    operandAddress .vex256Imm false (at3 []) (.base 0 (.disp8 8)) = 0x10008 ∧
    operandAddress .vex256Imm false (at3 []) (.sib 3 1 3 (.disp32 0x100)) = 0x140100 ∧
    operandAddress .vex256Imm false (at3 []) (.ripRel 0x10) = 0x40001A ∧
    operandAddress .vex256Imm false (at3 []) (.sib 1 12 4 .absent) = 0x1F0000 := by decide

/-- E18, E19, E22, E34, E35, E36: scaling by 64, by 8 with broadcast, negative, SIB. -/
theorem test_addresses_evex :
    operandAddress .evex512Imm false (at3 []) (.base 0 (.disp8 1)) = 0x10040 ∧
    operandAddress .evex512Imm true (at3 []) (.base 0 (.disp8 1)) = 0x10008 ∧
    operandAddress .evex256Imm true (at3 []) (.base 0 (.disp8 0xFF)) = 0xFFF8 ∧
    operandAddress .evex512Vec true (at3 []) (.sib 2 9 2 (.disp32 0x7F8)) = 0x2B07F8 ∧
    operandAddress .evex512Vec false (at3 []) (.ripRel 0x1000) = 0x40100A ∧
    operandAddress .evex512Vec false (at3 []) (.sib 3 14 13 (.disp8 0xFF)) = 0x85FFC0 := by decide

/-! ### One step (95_test_vectors.md sections 2 and 5) -/

/-- `V[n]` after a step, by elements, element 0 first. -/
def elements (n : VReg) : StepResult → List Qword
  | .next s => (List.range 8).map (qword (readV s n))
  | .fault _ => []
  | .refused _ => []

def q (n : Nat) : Qword := 0x1111111111111111 * BitVec.ofNat 64 n

def d (n : Nat) : Qword := 0xD0D0D0D0D0D0D000 + BitVec.ofNat 64 n

/-- `K[n]` with a value. -/
def setK (s : State) (n : Nat) (h : n < 8) (k : BitVec 64) : State := { s with k := s.k.set n k h }

/-- `V[n]` with given elements. -/
def setV (s : State) (n : VReg) (es : List Qword) : State := writeV s n (ofQwords (fun j => es.getD j 0) 8)

/-- V11: destination is the source: 39h rotates the old value, the upper half is zeroed. -/
theorem test_vex256_imm_dst_is_src :
    elements 1 (step (at3 [0xC4, 0xE3, 0xFD, 0x00, 0xC9, 0x39])) = [q 2, q 3, q 4, q 1, 0, 0, 0, 0] := by
  decide +kernel

/-- V15: 1Bh, k = 05h, zeroing. V18: mask bits from 4 up are not read, and the upper half is zeroed still. -/
theorem test_evex256_imm_masked :
    elements 0 (step (setK (at3 [0x62, 0xF3, 0xFD, 0xA9, 0x00, 0xC1, 0x1B]) 1 (by decide) 0x05))
      = [q 4, 0, q 2, 0, 0, 0, 0, 0] ∧
    elements 0 (step (setK (at3 [0x62, 0xF3, 0xFD, 0x29, 0x00, 0xC1, 0x1B]) 1 (by decide) 0xF0))
      = [d 0, d 1, d 2, d 3, 0, 0, 0, 0] := by decide +kernel

/-- V25: 1Bh, k = A5h, merging: each half reversed separately, mask bit `j` for element `j`. -/
theorem test_evex512_imm_merging :
    elements 0 (step (setK (at3 [0x62, 0xF3, 0xFD, 0x49, 0x00, 0xC1, 0x1B]) 1 (by decide) 0xA5))
      = [q 4, d 1, q 2, d 3, d 4, q 7, d 6, q 5] := by decide +kernel

/-- V28: broadcast of the quadword at [rax], k = 81h, merging; only elements 0 and 7 are written. -/
theorem test_evex512_imm_broadcast :
    elements 0 (step (setK { at3 [] with
      mem := writeList (writeList [] 0x400000 [0x62, 0xF3, 0xFD, 0x59, 0x00, 0x00, 0x1B])
        0x10000 [0xEF, 0xBE, 0xAD, 0xDE, 0x0D, 0xF0, 0xFE, 0xCA] } 1 (by decide) 0x81))
      = [0xCAFEF00DDEADBEEF, d 1, d 2, d 3, d 4, d 5, d 6, 0xCAFEF00DDEADBEEF] := by decide +kernel

/-- V31: indices 4, 5, 6, 7 at VL = 256 use two bits: the identity on the low half. -/
theorem test_evex256_vec_two_index_bits :
    elements 0 (step (setV (at3 [0x62, 0xF2, 0xED, 0x28, 0x36, 0xC1]) 2 [4, 5, 6, 7]))
      = [q 1, q 2, q 3, q 4, 0, 0, 0, 0] := by decide +kernel

/-- V37: destination, index and source in one register (here 31, bytes E31). -/
theorem test_evex256_vec_one_register :
    elements 31 (step (setV (at3 [0x62, 0x02, 0x85, 0x20, 0x36, 0xFF]) 31 [q 8, q 7, q 6, q 5, q 4, q 3, q 2, q 1]))
      = [q 8, q 5, q 6, q 7, 0, 0, 0, 0] := by decide +kernel

/-- V39: three bits of each index element are read, the rest is ignored. -/
theorem test_evex512_vec_three_index_bits :
    elements 0 (step (setV (at3 [0x62, 0xF2, 0xED, 0x48, 0x36, 0xC1]) 2
      [0xFFFFFFFFFFFFFFFF, 8, 0x13, 0xFFFFFFFFFFFFFFF8, 5, 5, 0xABCDEF0000000002, 0x0000000100000001]))
      = [q 8, q 1, q 4, q 1, q 6, q 6, q 3, q 2] := by decide +kernel

/-- V43: the index register is overwritten by the result it indexed. -/
theorem test_evex512_vec_dst_is_idx :
    elements 0 (step (setV (at3 [0x62, 0xF2, 0xFD, 0x48, 0x36, 0xC1]) 0 [7, 6, 5, 4, 3, 2, 1, 0]))
      = [q 8, q 7, q 6, q 5, q 4, q 3, q 2, q 1] := by decide +kernel

/-- The configuration in which the bytes from `first` to `last` give a page fault with code 0. -/
def noReadAt (s : State) (rs : List (Addr × Addr)) : State :=
  { s with cfg := { s.cfg with noRead := rs.map fun r => { first := r.1, last := r.2, fault := .pf 0 } } }

/-- M1 (E23, RBX = 40000h): an all-zero mask does not suppress the fault of the last of 64 bytes. M6 (E18): the
lowest-addressed unreadable byte is reported. -/
theorem test_data_faults :
    step (noReadAt (at3 [0x62, 0xF3, 0xFD, 0x4B, 0x00, 0x2B, 0xE4]) [(0x4003F, 0x4003F)])
      = .fault (.pageFault 0 0x4003F 0x400000) ∧
    step (noReadAt (at3 [0x62, 0xF3, 0xFD, 0x48, 0x00, 0x40, 0x01, 0x1B]) [(0x10077, 0x10077), (0x10050, 0x10050)])
      = .fault (.pageFault 0 0x10050 0x400000) := by
  constructor <;> rfl

/-- M3: a broadcast reads only 8 bytes, so the unreadable ninth does not matter. -/
theorem test_broadcast_reads_eight :
    elements 1 (step (setK (noReadAt (at3 [0x62, 0xF3, 0xFD, 0xD9, 0x00, 0x08, 0x00]) [(0x10008, 0x10008)]) 1
      (by decide) 0xFF)) = [0, 0, 0, 0, 0, 0, 0, 0] := by decide +kernel

/-- M8, M9, M10: a fetch fault at the immediate byte; #UD of X1 although ModRM is unreadable; a fetch fault at the
opcode byte of X1. -/
theorem test_fetch_faults :
    step (noReadAt (at3 [0xC4, 0xE3, 0xFD, 0x00, 0xC1, 0x1B]) [(0x400005, 0x400005)])
      = .fault (.pageFault 0 0x400005 0x400000) ∧
    step (noReadAt (at3 [0xC4, 0xE3, 0xF9, 0x00, 0xC1, 0x1B]) [(0x400004, 0x400004)]) = .fault (.ud 0x400000) ∧
    step (noReadAt (at3 [0xC4, 0xE3, 0xF9, 0x00, 0xC1, 0x1B]) [(0x400003, 0x400003)])
      = .fault (.pageFault 0 0x400003 0x400000) := by
  refine ⟨?_, ?_, ?_⟩ <;> rfl

/-- `pc` moves past the six bytes of the first instruction after reset. -/
theorem test_pc_advances :
    (match step (State.reset.withFetchWord 48 0xC4E3FD00C11B) with
      | .next s => decide (s.pc = 0xFFFFFFF6)
      | .fault _ => false
      | .refused _ => false) = true := by decide

/-! ### Witnesses: the hypotheses of the obligations can be met -/

/-- Every state of these tests may run, whatever bytes stand at `pc`. -/
theorem wit_runs (bytes : List Byte) : (at3 bytes).Runs := ⟨rfl, rfl, nofun⟩

/-- E1 stands at `pc` of a machine that runs. -/
theorem wit_step_runs :
    (at3 [0xC4, 0xE3, 0xFD, 0x00, 0xC1, 0x1B]).Runs ∧
    StandsAtPc (at3 [0xC4, 0xE3, 0xFD, 0x00, 0xC1, 0x1B]) (encode (.vpermqVex256Imm 0 (.reg 1) 0x1B)) ∧
    (Instr.vpermqVex256Imm 0 (.reg 1) 0x1B).wellFormed = true ∧
    (at3 [0xC4, 0xE3, 0xFD, 0x00, 0xC1, 0x1B]).cfg.supports .vex256Imm = true := by
  decide

/-- StepRunsTheDecodedInstruction. -/
theorem wit_decoded :
    ∃ rest, decode (at3 [0xC4, 0xE3, 0xFD, 0x00, 0xC1, 0x1B]).cfg
      (fetchBytes (at3 [0xC4, 0xE3, 0xFD, 0x00, 0xC1, 0x1B])) = .instr (.vpermqVex256Imm 0 (.reg 1) 0x1B) rest :=
  ⟨[0, 0, 0, 0, 0, 0], by decide⟩

/-- VerdictsIgnoreLaterBytes: X1, X23, E1; DecodedInstructionsAreWellFormed: E34 with a byte after it. -/
theorem wit_verdicts :
    decode Config.default [0xC4, 0xE3, 0xF9, 0x00] = .ud ∧
    decode Config.default [0x0F] = .refuse .notVpermq ∧
    decode Config.default [0x62, 0xA2, 0xB5, 0xD7, 0x36, 0x8C, 0x8A, 0xF8, 0x07, 0x00, 0x00, 0x90]
      = .instr (.vpermqEvex512Vec 17 25 (.mem (.sib 2 9 2 (.disp32 0x7F8))) 7 true true) [0x90] := by decide

/-- TwelveBytesDecide at its boundary: twelve bytes. -/
theorem wit_twelve_bytes : 12 ≤ (List.replicate 12 (0xC4 : Byte)).length := by decide

/-- SourceStatedIllegalEncodingsRaiseUd, clause 1: X1, and X2 with stored vvvv one below 1111. -/
theorem wit_ud_vex :
    (at3 [0xC4, 0xE3, 0xF9, 0x00]).Runs ∧
    StandsAtPc (at3 [0xC4, 0xE3, 0xF9, 0x00]) [0xC4, 0xE3, 0xF9, 0x00] ∧
    StandsAtPc (at3 [0xC4, 0xE3, 0xF5, 0x00]) [0xC4, 0xE3, 0xF5, 0x00] ∧
    (0xE3 : Byte).extractLsb' 0 5 = 0b00011#5 ∧ (0xF9 : Byte).extractLsb' 7 1 = 1#1 ∧
    (0xF9 : Byte).extractLsb' 0 2 = 0b01#2 ∧ (0xF9 : Byte).extractLsb' 2 1 = 0#1 ∧
    (0xF5 : Byte).extractLsb' 7 1 = 1#1 ∧ (0xF5 : Byte).extractLsb' 0 2 = 0b01#2 ∧
    (0xF5 : Byte).extractLsb' 3 4 = 0b1110#4 := by decide

/-- The same, clause 2: X4 and X5. -/
theorem wit_ud_evex_128 :
    StandsAtPc (at3 [0x62, 0xF3, 0xFD, 0x08, 0x00]) [0x62, 0xF3, 0xFD, 0x08, 0x00] ∧
    StandsAtPc (at3 [0x62, 0xF2, 0xF5, 0x08, 0x36]) [0x62, 0xF2, 0xF5, 0x08, 0x36] ∧
    (0xF3 : Byte).extractLsb' 0 2 = 0b11#2 ∧ (0xF2 : Byte).extractLsb' 0 2 = 0b10#2 ∧
    (0xFD : Byte).extractLsb' 7 1 = 1#1 ∧ (0xFD : Byte).extractLsb' 0 2 = 0b01#2 ∧
    (0xF5 : Byte).extractLsb' 7 1 = 1#1 ∧ (0xF5 : Byte).extractLsb' 0 2 = 0b01#2 ∧
    (0x08 : Byte).extractLsb' 5 2 = 0b00#2 := by decide

/-- The same, clause 3: X6. -/
theorem wit_ud_evex_vvvv :
    StandsAtPc (at3 [0x62, 0xF3, 0xF5, 0x48, 0x00]) [0x62, 0xF3, 0xF5, 0x48, 0x00] ∧
    (0xF3 : Byte).extractLsb' 0 2 = 0b11#2 ∧ (0xF5 : Byte).extractLsb' 7 1 = 1#1 ∧
    (0xF5 : Byte).extractLsb' 0 2 = 0b01#2 ∧ (0xF5 : Byte).extractLsb' 3 4 ≠ 0b1111#4 := by decide

/-- FurtherIllegalEncodingsRaiseUd, clauses 1 to 4: X12, X13; X10, X11, X7; X8, X9; X14 and REX at both ends of its
range. -/
theorem wit_ud_further :
    StandsAtPc (at3 [0x62, 0xF7, 0xFD, 0x48, 0x00]) [0x62, 0xF7, 0xFD, 0x48, 0x00] ∧
    (0xF7 : Byte).extractLsb' 2 2 ≠ 0b00#2 ∧ (0xF9 : Byte).extractLsb' 2 1 ≠ 1#1 ∧
    StandsAtPc (at3 [0x62, 0xF3, 0xFD, 0x68, 0x00]) [0x62, 0xF3, 0xFD, 0x68, 0x00] ∧
    (0x68 : Byte).extractLsb' 5 2 = 0b11#2 ∧
    (0xC8 : Byte).extractLsb' 7 1 = 1#1 ∧ (0xC8 : Byte).extractLsb' 0 3 = 0#3 ∧ (0x40 : Byte).extractLsb' 3 1 = 0#1 ∧
    StandsAtPc (at3 [0x62, 0xF2, 0xF5, 0x58, 0x36, 0xC2]) [0x62, 0xF2, 0xF5, 0x58, 0x36, 0xC2] ∧
    (0xC2 : Byte).extractLsb' 6 2 = 0b11#2 ∧ (0x58 : Byte).extractLsb' 4 1 = 1#1 ∧
    StandsAtPc (at3 [0xF0, 0xC4]) [0xF0, 0xC4] ∧ StandsAtPc (at3 [0x40, 0x62]) [0x40, 0x62] ∧
    StandsAtPc (at3 [0x4F, 0xC4]) [0x4F, 0xC4] := by decide

/-- ForeignBytesAreRefused, clauses 1 to 5: X24; X23 and bytes next to the REX range; a prefix before neither escape;
X19; X20. -/
theorem wit_refused :
    StandsAtPc (at3 [0x65]) [0x65] ∧ StandsAtPc (at3 [0x0F]) [0x0F] ∧ StandsAtPc (at3 [0x3F]) [0x3F] ∧
    StandsAtPc (at3 [0x50]) [0x50] ∧ (0x3F : Byte).extractLsb' 4 4 ≠ 0x4#4 ∧ (0x50 : Byte).extractLsb' 4 4 ≠ 0x4#4 ∧
    StandsAtPc (at3 [0x66, 0x90]) [0x66, 0x90] ∧
    StandsAtPc (at3 [0xC4, 0xE3, 0x7D, 0x00]) [0xC4, 0xE3, 0x7D, 0x00] ∧ (0x7D : Byte).extractLsb' 7 1 = 0#1 ∧
    StandsAtPc (at3 [0x62, 0xF3, 0x7D, 0x48, 0x00]) [0x62, 0xF3, 0x7D, 0x48, 0x00] ∧
    (0xF3 : Byte).extractLsb' 2 2 = 0b00#2 ∧ (0x7D : Byte).extractLsb' 2 1 = 1#1 := by decide

/-- FetchOfUnreadableByteFaults: M8. -/
theorem wit_fetch_fault :
    (noReadAt (at3 [0xC4, 0xE3, 0xFD, 0x00, 0xC1]) [(0x400005, 0x400005)]).Runs ∧
    StandsAtPc (noReadAt (at3 [0xC4, 0xE3, 0xFD, 0x00, 0xC1]) [(0x400005, 0x400005)]) [0xC4, 0xE3, 0xFD, 0x00, 0xC1] ∧
    decode (noReadAt (at3 [0xC4, 0xE3, 0xFD, 0x00, 0xC1]) [(0x400005, 0x400005)]).cfg [0xC4, 0xE3, 0xFD, 0x00, 0xC1]
      = .truncated ∧
    readable (noReadAt (at3 [0xC4, 0xE3, 0xFD, 0x00, 0xC1]) [(0x400005, 0x400005)]).cfg 0x400005 = some (.pf 0) := by
  decide

/-- MachineThatMayNotRunIsRefused, its three clauses. -/
theorem wit_not_running :
    ({ at3 [] with pEnd := some 0x400000 } : State).pEnd = some (at3 []).pc ∧
    ({ at3 [] with cfg := { Config.default with mode64 := false } } : State).cfg.mode64 = false ∧
    ({ at3 [] with cfg := { Config.default with stateEnabled := false } } : State).cfg.stateEnabled = false ∧
    (at3 []).pEnd ≠ some (at3 []).pc := by decide

/-- FetchSrcElements and the five completion statements: the forms run and the operands are readable, a register, a
whole operand of 64 bytes, and 8 bytes with the ninth unreadable. -/
theorem wit_completes :
    FormRuns .vex256Imm (at3 []) ∧ FormRuns .evex256Imm (at3 []) ∧ FormRuns .evex512Imm (at3 []) ∧
    FormRuns .evex256Vec (at3 []) ∧ FormRuns .evex512Vec (at3 []) ∧
    sourceReadable .vex256Imm (.reg 15) false (at3 []) = true ∧
    sourceReadable .evex512Vec (.mem (.base 0 .absent)) false
      (noReadAt (at3 []) [(0xFFFF, 0xFFFF), (0x10040, 0x10040)]) = true ∧
    sourceReadable .evex256Imm (.mem (.base 0 .absent)) true (noReadAt (at3 []) [(0x10008, 0x10008)]) = true := by
  decide

/-- ApplyMaskElements, its clauses: no mask; an enabled and a masked-off element at the last place of VL = 256. -/
theorem wit_mask :
    (readK (setK (at3 []) 1 (by decide) 0x08) 1).getLsbD 3 = true ∧
    (readK (setK (at3 []) 1 (by decide) 0xF7) 1).getLsbD 3 = false ∧ 3 < VLen.vl256.kl ∧ (1 : KReg) ≠ 0#3 := by decide

/-- PermImmElements, PermVecElements and NamedImmediatesPermuteAsStated at the last element. -/
theorem wit_elements : 1 < VLen.vl512.bits / 256 ∧ 1 < VLen.vl512.kl / 4 ∧ 0 < VLen.vl256.kl / 4 ∧ 3 < 4 := by decide

/-- MemReadFaultsAtTheLowestByte: all readable; an unreadable last byte. -/
theorem wit_mem_read :
    (∀ b ∈ addrRange 0x10000 8, readable (noReadAt (at3 []) [(0x10008, 0x10008)]).cfg b = none) ∧
    ∃ b ∈ addrRange 0x10000 8, readable (noReadAt (at3 []) [(0x10007, 0x10007)]).cfg b ≠ none := by
  refine ⟨?_, 0x10007, by decide, by decide⟩
  intro b hb
  simp only [addrRange, List.mem_map, List.mem_range] at hb
  obtain ⟨k, hk, rfl⟩ := hb
  revert k
  decide

/-- MemWriteThenMemRead: a canonical memory that lists bytes. -/
theorem wit_mem_write :
    Memory.wf (at3 [0xC4, 0xE3, 0xFD]).mem = true ∧ 64 ≤ 2 ^ 64 ∧ (0x10008 : Addr) ∉ addrRange 0x10000 8 := by decide

/-- GeneralRegisterWriteThenRead at the last register: r15 is written, r14 is another register. -/
theorem test_write_x :
    readX (writeX (at3 []) 15 0x2A) 15 = 0x2A ∧ (14 : GReg) ≠ 15 ∧ readX (writeX (at3 []) 15 0x2A) 14 = 0xF0000 := by
  decide

/-- A step that completes: for CompletedStepIsOneInstruction and every statement about a next state. -/
theorem wit_next : ∃ t, step (at3 [0xC4, 0xE3, 0xFD, 0x00, 0xC1, 0x1B]) = .next t := ⟨_, rfl⟩

/-- The same through `exec`, for the frame and the independence statements. -/
theorem wit_exec_next : ∃ t, exec (.vpermqVex256Imm 0 (.reg 1) 0x1B) (at3 []) = .next t := ⟨_, rfl⟩

/-- Vex256AndEvex256ImmAgree: one address spelled `[rax+32]` with each prefix's scale. -/
theorem wit_vex_evex_agree :
    fetchSrc .vex256Imm (.mem (.base 0 (.disp8 32))) false (at3 [])
      = fetchSrc .evex256Imm (.mem (.base 0 (.disp8 1))) false (at3 []) ∧
    ∃ u, exec (.vpermqEvex256Imm 0 (.mem (.base 0 (.disp8 1))) 0x1B 0 false false) (at3 []) = .next u :=
  ⟨rfl, _, rfl⟩

/-- UnreadableOperandFaultsWhateverTheMask: M1. -/
theorem wit_unreadable :
    FormRuns .evex512Imm (noReadAt (at3 []) [(0x4003F, 0x4003F)]) ∧
    sourceReadable .evex512Imm (.mem (.base 3 .absent)) false (noReadAt (at3 []) [(0x4003F, 0x4003F)]) = false := by
  decide

/-- The state with the three feature flags as given. -/
def withFlags (avx2 avx512f avx512vl : Bool) (s : State) : State :=
  { s with cfg := { s.cfg with hasAvx2 := avx2, hasAvx512f := avx512f, hasAvx512vl := avx512vl } }

/-- ClearFeatureFlagRaisesUd, both clauses: X17 and X18 stand at `pc` of a machine that runs, one flag clear. -/
theorem wit_feature :
    (withFlags false true true (at3 [0xC4, 0xE3, 0xFD, 0x00, 0xC1, 0x1B])).Runs ∧
    StandsAtPc (withFlags false true true (at3 [0xC4, 0xE3, 0xFD, 0x00, 0xC1, 0x1B]))
      (encode (.vpermqVex256Imm 0 (.reg 1) 0x1B)) ∧
    (withFlags false true true (at3 [])).cfg.cpuidFlags .vex256Imm = false ∧
    (withFlags true false true (at3 [0x62, 0xF3, 0xFD, 0x28, 0x00, 0xC1, 0x1B])).Runs ∧
    StandsAtPc (withFlags true false true (at3 [0x62, 0xF3, 0xFD, 0x28, 0x00, 0xC1, 0x1B]))
      (encode (.vpermqEvex256Imm 0 (.reg 1) 0x1B 0 false false)) ∧
    (withFlags true false true (at3 [])).cfg.cpuidFlags .evex256Imm = false := by decide

/-- OutcomesOfOneInstruction: the 512-bit forms do without AVX512VL, and the 256-bit EVEX forms do not. -/
theorem test_flags_per_form :
    (withFlags true true false (at3 [])).cfg.wf = true ∧
    (withFlags true true false (at3 [])).cfg.supports .evex512Imm = true ∧
    (withFlags true true false (at3 [])).cfg.supports .evex256Vec = false ∧
    (withFlags false true true (at3 [])).cfg.supports .evex256Imm = true := by decide

/-- UnreadMaskBitsDoNotMatter: F5h and 05h agree below KL = 4. -/
theorem wit_mask_bits :
    ∀ j, j < 4 → (readK (setK (at3 []) 1 (by decide) 0xF5) 1).getLsbD j
      = (readK (setK (at3 []) 1 (by decide) 0x05) 1).getLsbD j := by decide

/-- RegisterBitsAboveVLDoNotMatter: register 1 changed in an element above VL = 256. -/
theorem wit_register_bits :
    ∀ n, readVL .vl256 { at3 [] with v := (at3 []).v.set 1 (ofQwords (fun j => if j = 7 then 0 else q (j + 1)) 8) } n
      = readVL .vl256 (at3 []) n := by decide +kernel

/-- UnreadIndexBitsDoNotMatter: indices 4 to 7 and 0 to 3 agree modulo 4. -/
theorem wit_index_bits :
    ∀ j, j < VLen.vl256.kl → (qword (ofQwords (fun i => BitVec.ofNat 64 (i + 4)) 4) j).toNat % VLen.vl256.kl
      = (qword (ofQwords (fun i => BitVec.ofNat 64 i) 4) j).toNat % VLen.vl256.kl := by decide

/-- ImmediatesCompose: 1Bh after 4Eh is B1h. -/
theorem wit_compose :
    ∀ j, j < 4 → immSelector 0xB1 j = immSelector 0x4E (immSelector 0x1B j) := by decide

/-- IdentityIndexIsIdentity, and ImmediatePermutationsAreVectorPermutations with E4h, at VL = 512. -/
theorem wit_identity_index :
    ∀ j, j < VLen.vl512.kl → (qword (ofQwords (fun i => BitVec.ofNat 64 i) 8) j).toNat = j ∧
      j = 4 * (j / 4) + immSelector 0xE4 (j % 4) := by decide +kernel

/-- StepKeepsTheInvariant: a state that meets the invariant and whose step completes. -/
theorem wit_invariant :
    (State.reset.withFetchWord 48 0xC4E3FD00C11B).Inv ∧
    ∃ t, step (State.reset.withFetchWord 48 0xC4E3FD00C11B) = .next t := by
  refine ⟨⟨by decide, by decide, ?_, by decide +kernel⟩, _, rfl⟩
  decide +kernel

/-- The statements over runs: two VPERMQ in a row complete. -/
theorem wit_run :
    (match Sys2Proof.core.run 2 (at3 [0xC4, 0xE3, 0xFD, 0x00, 0xC1, 0x1B, 0x62, 0xF2, 0xF5, 0x48, 0x36, 0xC2]) with
      | .next s => decide (State.pc s = 0x40000C)
      | .fault _ => false
      | .refused _ => false) = true := by decide +kernel

end Sys2Proof.Tests
end

section
/-! What an instruction, a step and a run that complete have done, each said once, and the induction over the steps
of a run. -/

namespace Sys2Proof.Machine

/-- An instruction that completes had its form enabled and its operand fetched, and has written its destination and
moved `pc`; nothing else of the state is touched. -/
theorem exec_next {i : Instr} {s t : State} (h : exec i s = .next t) :
    FormRuns i.form s ∧ sourceReadable i.form i.src i.bcst s = true ∧
      ∃ d, fetchSrc i.form i.src i.bcst s = .ok d ∧
        t = advancePc (writeDest s i.dst
          (applyMask s i.mask i.zeroing (readVL i.form.vl s i.dst) (Instr.perm i s d)))
          (instrLength i.form i.src) := by
  rw [exec_eq_permuteInto] at h
  rcases permuteInto_cases i.form i.dst i.src i.mask i.zeroing i.bcst (Instr.perm i s) s with
    ⟨hruns, hread, d, hd, hnext⟩ | ⟨_, _, _, _, _, hfault⟩ | ⟨_, _, hud⟩ | ⟨_, hrefused⟩
  · exact ⟨hruns, hread, d, hd, Host.Outcome.next.inj (h.symm.trans hnext)⟩
  · exact nomatch h.symm.trans hfault
  · exact nomatch h.symm.trans hud
  · exact nomatch h.symm.trans hrefused

/-- No exception leaves a next state (R146). -/
theorem takeException_ne_next (e : Exc) (s t : State) : takeException e s ≠ .next t := by
  cases e with
  | ud => simp
  | memory f a => simp [takeException_memory]

/-- Nor does a fetch that stops before the instruction is complete (R74). -/
theorem fetchFault_ne_next (s t : State) : fetchFault s ≠ .next t := by
  unfold fetchFault
  split
  · exact takeException_ne_next _ _ _
  · simp

/-- A step completes exactly when the machine may run and the instruction decoded at `pc` completes. -/
theorem step_next_iff {s t : State} :
    step s = .next t ↔
      launchRefusal s = none ∧ ∃ i rest, decode s.cfg (fetchBytes s) = .instr i rest ∧ exec i s = .next t := by
  unfold step
  cases launchRefusal s with
  | some r => simp
  | none =>
    cases decode s.cfg (fetchBytes s) with
    | instr i rest => simp
    | ud => simp
    | refuse why => simp
    | truncated => simp [fetchFault_ne_next]

/-- A run of no steps ends where it began. -/
theorem run_zero_next_iff {M : Host.Core} {s t : M.State} : M.run 0 s = .next t ↔ s = t := by
  simp [Host.Core.run]

/-- A run completes `n + 1` steps exactly when its first step completes and the run from there completes `n`. -/
theorem run_succ_next_iff {M : Host.Core} {n : Nat} {s t : M.State} :
    M.run (n + 1) s = .next t ↔ ∃ u, M.step s = .next u ∧ M.run n u = .next t := by
  rw [Host.Core.run]
  cases M.step s with
  | next u => simp
  | fault f => simp
  | refused r => simp

/-- Induction over the steps of a run: what holds of no step, and of one completed step followed by a run of which it
holds, holds of every completed run. -/
theorem run_induction {P : Nat → State → State → Prop} (zero : ∀ s, P 0 s s)
    (succ : ∀ n s u t, step s = .next u → P n u t → P (n + 1) s t) {n : Nat} {s t : State}
    (h : Sys2Proof.core.run n s = .next t) : P n s t := by
  induction n generalizing s with
  | zero => exact run_zero_next_iff.1 h ▸ zero s
  | succ n ih =>
    obtain ⟨u, hstep, hrun⟩ := run_succ_next_iff.1 h
    exact succ n s u t hstep (ih hrun)

end Sys2Proof.Machine
end

section
/-! R47: no form stores, so memory is the launch memory throughout a run. -/

namespace Sys2Proof.Machine

/-- A completed instruction stores nothing: it writes a vector register and `pc`. -/
theorem exec_next_mem {i : Instr} {s t : State} (h : exec i s = .next t) : t.mem = s.mem := by
  obtain ⟨_, _, d, _, rfl⟩ := exec_next h
  simp

/-- Fetch and decode only read, so a completed step stores nothing either. -/
theorem step_next_mem {s t : State} (h : step s = .next t) : t.mem = s.mem := by
  obtain ⟨_, i, _, _, hexec⟩ := step_next_iff.1 h
  exact exec_next_mem hexec

/-- Settles O48, by induction over the steps of the run. -/
theorem memoryIsConstantOverARun : Obligations.MemoryIsConstantOverARun := by
  unfold Obligations.MemoryIsConstantOverARun
  exact ⟨fun _ _ _ => exec_next_mem, fun _ _ _ =>
    run_induction (P := fun _ s t => t.mem = s.mem) (fun _ => rfl)
      fun _ _ _ _ hstep hrest => hrest.trans (step_next_mem hstep)⟩

end Sys2Proof.Machine
end

section
/-! What `FetchSrc` gives on a readable operand (R101), from the bits of a multi-byte read (R41). -/

namespace Sys2Proof.Machine

/-- Bit `i` of a read is bit `i mod 8` of its byte `i / 8` (R41). -/
theorem getLsbD_readBytes (m : Memory) (a : Addr) {n i : Nat} (h : i < 8 * n) :
    (readBytes m a n).getLsbD i = (readByte m (a + BitVec.ofNat 64 (i / 8))).getLsbD (i % 8) := by
  induction n generalizing a i with
  | zero => omega
  | succ n ih =>
    rw [readBytes, BitVec.getLsbD_append]
    split
    · next hlow =>
      rw [Nat.div_eq_of_lt hlow, Nat.mod_eq_of_lt hlow, BitVec.add_zero]
    · next hhigh =>
      have hdiv : i / 8 = 1 + (i - 8) / 8 := by omega
      have hmod : i % 8 = (i - 8) % 8 := by omega
      rw [ih _ (by omega), hdiv, hmod, BitVec.ofNat_add, BitVec.add_assoc]

/-- Element `j` of a read is the 8-byte read at `a + 8j` (R41). -/
theorem qword_readBytes (m : Memory) (a : Addr) {n j : Nat} (h : 8 * j + 8 ≤ n) :
    qword (readBytes m a n) j = readBytes m (a + BitVec.ofNat 64 (8 * j)) 8 := by
  apply BitVec.eq_of_getLsbD_eq
  intro i hi
  have hdiv : (64 * j + i) / 8 = 8 * j + i / 8 := by omega
  have hmod : (64 * j + i) % 8 = i % 8 := by omega
  rw [getLsbD_qword _ _ hi, getLsbD_readBytes _ _ (by omega), getLsbD_readBytes _ _ (by omega), hdiv, hmod,
    BitVec.ofNat_add, BitVec.add_assoc]

/-- `MemRead` of a readable range gives its bytes (R42). -/
theorem memRead_of_readable {s : State} {a : Addr} {n : Nat} (h : ∀ b ∈ addrRange a n, readable s.cfg b = none) :
    memRead s a n = .ok (readBytes s.mem a n) := by
  rw [memRead, lowestUnreadable_none.2 h]

/-- A readable memory operand is read in full, whatever the writemask (R44, R101). -/
theorem fetchSrc_mem_full {f : Form} {m : MemRef} {s : State} (h : sourceReadable f (.mem m) false s = true) :
    fetchSrc f (.mem m) false s =
      .ok ((readBytes s.mem (operandAddress f false s m) (8 * f.vl.kl)).setWidth f.vl.bits) := by
  have hread := memRead_of_readable (n := 8 * f.vl.kl) (sourceReadable_iff.1 h)
  rw [fetchSrc, hread]
  rfl

/-- A readable broadcast operand is 8 bytes, copied to every element (R45, R101). -/
theorem fetchSrc_mem_broadcast {f : Form} {m : MemRef} {s : State} (h : sourceReadable f (.mem m) true s = true) :
    fetchSrc f (.mem m) true s =
      .ok (ofQwords (fun _ => readBytes s.mem (operandAddress f true s m) 8) f.vl.kl) := by
  have hread := memRead_of_readable (n := 8) (sourceReadable_iff.1 h)
  rw [fetchSrc, hread]
  rfl

/-- Settles O15: a full operand is cut into the 8-byte reads of its elements, a broadcast one repeats one read. -/
theorem fetchSrcElements : Obligations.FetchSrcElements := by
  unfold Obligations.FetchSrcElements
  refine ⟨fun _ _ _ _ => rfl, fun f m s h => ⟨_, fetchSrc_mem_full h, fun j hj => ?_⟩,
    fun f m s h => ⟨_, fetchSrc_mem_broadcast h, fun j hj => qword_ofQwords _ hj⟩⟩
  rw [qword_setWidth _ (Nat.le_refl _) hj, qword_readBytes _ _ (by omega)]

end Sys2Proof.Machine
end

section
/-! The writemask, element by element (R102). -/

namespace Sys2Proof.Machine

/-- Without a writemask every element is written. -/
@[simp] theorem elementEnabled_zero (s : State) (j : Nat) : elementEnabled s 0#3 j = true := rfl

/-- Under a writemask, bit `j` of its register decides. -/
theorem elementEnabled_of_ne {mask : KReg} (s : State) (j : Nat) (h : mask ≠ 0#3) :
    elementEnabled s mask j = (readK s mask).getLsbD j := by
  simp [elementEnabled, h]

/-- Element `j` under the mask: the new element, or what masking leaves in its place. -/
theorem qword_applyMask {vl : VLen} (s : State) (mask : KReg) (zeroing : Bool) (old tmp : BitVec vl.bits) {j : Nat}
    (hj : j < vl.kl) :
    qword (applyMask s mask zeroing old tmp) j =
      if elementEnabled s mask j then qword tmp j else if zeroing then 0#64 else qword old j :=
  qword_ofQwords _ hj

/-- Settles O16, by the branches of the masked element. -/
theorem applyMaskElements : Obligations.ApplyMaskElements := by
  unfold Obligations.ApplyMaskElements
  intro vl s mask zeroing old tmp j hj
  rw [qword_applyMask s mask zeroing old tmp hj]
  refine ⟨?unmasked, ?enabled, ?merging, ?zeroed⟩
  case unmasked =>
    rintro rfl
    simp
  case enabled =>
    intro hmask hbit
    simp [elementEnabled_of_ne s j hmask, hbit]
  case merging =>
    intro hmask hbit hz
    simp [elementEnabled_of_ne s j hmask, hbit, hz]
  case zeroed =>
    intro hmask hbit hz
    simp [elementEnabled_of_ne s j hmask, hbit, hz]

end Sys2Proof.Machine
end

section
/-! The destination write: zero-extension to the register's container (R103). -/

namespace Sys2Proof.Machine

/-- Every vector length fits the 512-bit container (R71, log entry 2). -/
theorem bits_le_container (vl : VLen) : vl.bits ≤ 512 := by cases vl <;> decide

/-- The low VL bits of the destination are the result. -/
theorem readVL_writeDest_self {vl : VLen} (s : State) (n : VReg) (r : BitVec vl.bits) :
    readVL vl (writeDest s n r) n = r := by
  apply BitVec.eq_of_getLsbD_eq
  intro i hi
  have hcontainer : i < 512 := Nat.lt_of_lt_of_le hi (bits_le_container vl)
  simp [readVL, hi, hcontainer]

/-- The bits of the destination from VL up are zero. -/
theorem getLsbD_readV_writeDest_of_ge {vl : VLen} (s : State) (n : VReg) (r : BitVec vl.bits) {b : Nat}
    (h : vl.bits ≤ b) : (readV (writeDest s n r) n).getLsbD b = false := by
  rw [readV_writeDest_self, BitVec.getLsbD_setWidth, BitVec.getLsbD_of_ge r b h, Bool.and_false]

/-- Settles O17, from the read laws of the destination write. -/
theorem writeDestZeroesAboveVL : Obligations.WriteDestZeroesAboveVL := by
  unfold Obligations.WriteDestZeroesAboveVL
  exact fun vl s dst r => ⟨readVL_writeDest_self s dst r, fun _ => getLsbD_readV_writeDest_of_ge s dst r,
    fun _ => readV_writeDest_ne s r⟩

end Sys2Proof.Machine
end

section
/-! The immediate permutation, element by element (R105). -/

namespace Sys2Proof.Machine

/-- `SelectQ` takes an element (R100). -/
theorem selectQ_eq_qword {w : Nat} (x : BitVec w) (sel : Nat) : selectQ x sel = qword x sel := by
  apply BitVec.eq_of_getLsbD_eq
  intro i hi
  rw [getLsbD_qword _ _ hi]
  simp [selectQ, hi, Nat.mul_comm sel]

/-- Element `e` of 256-bit half `h` is element `4h + e` of the vector. -/
theorem qword_half {w : Nat} (t : BitVec w) (h : Nat) {e : Nat} (he : e < 4) :
    qword (t.extractLsb' (256 * h) 256) e = qword t (4 * h + e) := by
  apply BitVec.eq_of_getLsbD_eq
  intro i hi
  have hin : 64 * e + i < 256 := by omega
  have hpos : 256 * h + (64 * e + i) = 64 * (4 * h + e) + i := by omega
  rw [getLsbD_qword _ _ hi, getLsbD_qword _ _ hi, BitVec.getLsbD_extractLsb', hpos]
  simp [hin]

/-- An immediate selects among the four elements of a half (R68). -/
theorem immSelector_lt (imm8 : BitVec 8) (j : Nat) : immSelector imm8 j < 4 := BitVec.isLt _

/-- Every place of an immediate permutation: field `i mod 4` selects within the half `i / 4` (R105). -/
theorem qword_permImm {vl : VLen} (imm8 : BitVec 8) (t : BitVec vl.bits) {i : Nat} (hi : i < vl.kl) :
    qword (permImm imm8 t) i = qword t (4 * (i / 4) + immSelector imm8 (i % 4)) := by
  rw [permImm, qword_ofQwords _ hi, selectQ_eq_qword, qword_half t _ (immSelector_lt imm8 _)]

/-- Settles O18: place `4h + j` is in half `h` and takes field `j`. -/
theorem permImmElements : Obligations.PermImmElements := by
  unfold Obligations.PermImmElements
  intro vl imm8 t h j hh hj
  have hplace : 4 * h + j < vl.kl := by rw [VLen.bits] at hh; omega
  have hhalf : (4 * h + j) / 4 = h := by omega
  have hfield : (4 * h + j) % 4 = j := by omega
  rw [qword_permImm imm8 t hplace, hhalf, hfield, immSelector]

end Sys2Proof.Machine
end

section
/-! The vector permutation, element by element (R120). -/

namespace Sys2Proof.Machine

/-- The low `n` bits of element `j` are the `n` bits of the vector at its start (R6). -/
theorem extractLsb'_qword_low {w n : Nat} (v : BitVec w) (j : Nat) (hn : n ≤ 64) :
    (qword v j).extractLsb' 0 n = v.extractLsb' (64 * j) n := by
  apply BitVec.eq_of_getLsbD_eq
  intro i hi
  simp [getLsbD_qword v j (Nat.lt_of_lt_of_le hi hn)]

/-- The index bits lie within one element (R120). -/
theorem indexBits_le (vl : VLen) : indexBits vl ≤ 64 := by cases vl <;> decide

/-- The selector of a place is the low bits of its index element; the other bits are not read (R120). -/
theorem vecSelector_eq (vl : VLen) (x : BitVec vl.bits) (j : Nat) :
    vecSelector vl x j = ((qword x j).extractLsb' 0 (indexBits vl)).toNat := by
  rw [vecSelector, extractLsb'_qword_low x j (indexBits_le vl)]

/-- Every place of a vector permutation: its index element selects from the whole data vector (R120). -/
theorem qword_permVec {vl : VLen} (x t : BitVec vl.bits) {j : Nat} (hj : j < vl.kl) :
    qword (permVec x t) j = qword t ((qword x j).extractLsb' 0 (indexBits vl)).toNat := by
  rw [permVec, qword_ofQwords _ hj, selectQ_eq_qword, vecSelector_eq]

/-- Settles O19: the law of every place, with two index bits at VL = 256 and three at VL = 512. -/
theorem permVecElements : Obligations.PermVecElements := by
  unfold Obligations.PermVecElements
  exact ⟨fun x t _ hj => qword_permVec x t hj, fun x t _ hj => qword_permVec x t hj⟩

end Sys2Proof.Machine
end

section
/-! What an instruction and a step that complete have left of the state they began in (R23, R30), and what follows for
a run. -/

namespace Sys2Proof.Machine

/-- A completed instruction is a write of its destination and the move of `pc` past its bytes. -/
theorem exec_next_retired {i : Instr} {s t : State} (h : exec i s = .next t) :
    ∃ r : BitVec i.form.vl.bits, t = advancePc (writeDest s i.dst r) i.length := by
  obtain ⟨_, _, _, _, ht⟩ := exec_next h
  exact ⟨_, ht⟩

/-- Writing a destination and moving `pc` changes nothing else (R30). -/
theorem frame_advancePc_writeDest {vl : VLen} (s : State) (dst : VReg) (r : BitVec vl.bits) (len : Nat) :
    Frame dst s (advancePc (writeDest s dst r) len) where
  v _ hn := readV_writeDest_ne s r hn
  k _ := rfl
  x _ := rfl
  mem _ := rfl
  pEnd := rfl
  cfg := rfl

/-- Settles O30, from the two writes of a completed instruction. -/
theorem completedInstructionsChangeOnlyDestinationAndPc :
    Obligations.CompletedInstructionsChangeOnlyDestinationAndPc := by
  unfold Obligations.CompletedInstructionsChangeOnlyDestinationAndPc
  intro i s t h
  obtain ⟨r, rfl⟩ := exec_next_retired h
  exact ⟨frame_advancePc_writeDest s i.dst r i.length, rfl, fun _ => getLsbD_readV_writeDest_of_ge s i.dst r⟩

/-- A machine is refused nothing at launch exactly when it runs (R161, R162). -/
theorem launchRefusal_eq_none_iff {s : State} : launchRefusal s = none ↔ s.Runs := by
  unfold launchRefusal State.Runs
  by_cases hend : s.pEnd = some s.pc
  · simp [hend]
  · cases s.cfg.mode64 <;> cases s.cfg.stateEnabled <;> simp [hend]

/-- Settles O13: the step of a next state ran the instruction it decoded. -/
theorem completedStepIsOneInstruction : Obligations.CompletedStepIsOneInstruction := by
  unfold Obligations.CompletedStepIsOneInstruction
  intro s t h
  obtain ⟨hlaunch, i, rest, hdecode, hexec⟩ := step_next_iff.1 h
  obtain ⟨hframe, hpc, _⟩ := completedInstructionsChangeOnlyDestinationAndPc i s t hexec
  exact ⟨i, rest, hdecode, launchRefusal_eq_none_iff.1 hlaunch, hframe, hpc⟩

/-- A completed step leaves the opmask and general registers, the configuration and `p_end` alone. -/
theorem step_next_constants {s t : State} (h : step s = .next t) :
    t.k = s.k ∧ t.x = s.x ∧ t.cfg = s.cfg ∧ t.pEnd = s.pEnd := by
  obtain ⟨_, i, _, _, hexec⟩ := step_next_iff.1 h
  obtain ⟨r, rfl⟩ := exec_next_retired hexec
  exact ⟨rfl, rfl, rfl, rfl⟩

/-- Settles O49, by induction over the steps of the run. -/
theorem masksAndGeneralRegistersAreConstantOverARun :
    Obligations.MasksAndGeneralRegistersAreConstantOverARun := by
  unfold Obligations.MasksAndGeneralRegistersAreConstantOverARun
  intro n s t
  refine run_induction (P := fun _ s t => t.k = s.k ∧ t.x = s.x ∧ t.cfg = s.cfg ∧ t.pEnd = s.pEnd)
    (fun _ => ⟨rfl, rfl, rfl, rfl⟩) ?succ
  case succ =>
    rintro _ s u t hstep ⟨hk, hx, hcfg, hend⟩
    obtain ⟨hk', hx', hcfg', hend'⟩ := step_next_constants hstep
    exact ⟨hk.trans hk', hx.trans hx', hcfg.trans hcfg', hend.trans hend'⟩

/-- Every instruction is 6 to 12 bytes long (R74). -/
theorem length_bounds (i : Instr) : 6 ≤ i.length ∧ i.length ≤ 12 := by
  cases i with
  | vpermqVex256Imm => exact (Laws.EncodedLength.vpermqVex256Imm ..).2
  | vpermqEvex256Imm => exact (Laws.EncodedLength.vpermqEvex256Imm ..).2
  | vpermqEvex512Imm => exact (Laws.EncodedLength.vpermqEvex512Imm ..).2
  | vpermqEvex256Vec => exact (Laws.EncodedLength.vpermqEvex256Vec ..).2
  | vpermqEvex512Vec => exact (Laws.EncodedLength.vpermqEvex512Vec ..).2

/-- A completed step moves `pc` on by the length of one instruction. -/
theorem step_next_pc {s t : State} (h : step s = .next t) :
    ∃ len, 6 ≤ len ∧ len ≤ 12 ∧ t.pc = s.pc + BitVec.ofNat 64 len := by
  obtain ⟨i, _, _, _, _, hpc⟩ := completedStepIsOneInstruction s t h
  exact ⟨i.length, (length_bounds i).1, (length_bounds i).2, hpc⟩

/-- Settles O50, by induction over the steps of the run: the distances add up. -/
theorem controlFallsThrough : Obligations.ControlFallsThrough := by
  unfold Obligations.ControlFallsThrough
  intro n s t
  refine run_induction (P := fun n s t => ∃ d : Nat, 6 * n ≤ d ∧ d ≤ 12 * n ∧ t.pc = s.pc + BitVec.ofNat 64 d)
    (fun s => ⟨0, by simp⟩) ?succ
  case succ =>
    rintro n s u t hstep ⟨d, hlow, hhigh, hpc⟩
    obtain ⟨len, hlow', hhigh', hpc'⟩ := step_next_pc hstep
    refine ⟨len + d, by omega, by omega, ?_⟩
    rw [hpc, hpc', BitVec.ofNat_add, BitVec.add_assoc]

end Sys2Proof.Machine
end

section
/-! The invariant: what a form that may run writes fits the registers of the part (R20, D2). -/

namespace Sys2Proof.Machine

/-- The registers of a part hold the vectors of every form it supports (D2). -/
theorem bits_le_maxvl_of_supports {c : Config} {f : Form} (h : c.supports f = true) :
    f.vl.bits ≤ c.maxvl.bits := by
  cases hmaxvl : c.maxvl with
  | w512 => exact bits_le_container f.vl
  | w256 =>
    have hvex : f = .vex256Imm := by
      cases f <;> simp_all [Config.supports]
    subst hvex
    exact Nat.le_refl _

/-- The destination holds no bit from VL up. -/
theorem readV_writeDest_self_lt {vl : VLen} (s : State) (n : VReg) (r : BitVec vl.bits) :
    (readV (writeDest s n r) n).toNat < 2 ^ vl.bits := by
  rw [readV_writeDest_self, BitVec.toNat_setWidth]
  exact Nat.lt_of_le_of_lt (Nat.mod_le _ _) r.isLt

/-- A completed instruction keeps every vector register within MAXVL bits. -/
theorem exec_next_readV_lt {i : Instr} {s t : State} (h : exec i s = .next t)
    (hs : ∀ n, (readV s n).toNat < 2 ^ s.cfg.maxvl.bits) (n : VReg) :
    (readV t n).toNat < 2 ^ s.cfg.maxvl.bits := by
  obtain ⟨⟨_, hsupports⟩, _, _, _, rfl⟩ := exec_next h
  rw [readV_advancePc]
  by_cases hn : n = i.dst
  · subst hn
    exact Nat.lt_of_lt_of_le (readV_writeDest_self_lt ..)
      (Nat.pow_le_pow_right (by decide) (bits_le_maxvl_of_supports hsupports))
  · rw [readV_writeDest_ne s _ hn]
    exact hs n

/-- Settles O46: a step writes one vector register, within MAXVL bits, and `pc`. -/
theorem stepKeepsTheInvariant : Obligations.StepKeepsTheInvariant := by
  unfold Obligations.StepKeepsTheInvariant
  rintro s t ⟨hcfg, hmem, hv, hk⟩ h
  obtain ⟨hk', _, hcfg', _⟩ := step_next_constants h
  obtain ⟨_, i, _, _, hexec⟩ := step_next_iff.1 h
  refine ⟨hcfg' ▸ hcfg, step_next_mem h ▸ hmem, ?vectors, ?masks⟩
  case vectors =>
    rw [hcfg']
    exact exec_next_readV_lt hexec hv
  case masks =>
    simpa only [readK, hk', hcfg'] using hk

/-- Every vector register is 0 at reset (log entry 5). -/
theorem readV_reset (n : VReg) : readV State.reset n = 0#512 := by
  simp [readV, State.reset]

/-- Every opmask register is 0 at reset (log entry 5). -/
theorem readK_reset (n : KReg) : readK State.reset n = 0#64 := by
  simp [readK, State.reset]

/-- Every general register is 0 at reset (log entry 5). -/
theorem readX_reset (n : GReg) : readX State.reset n = 0#64 := by
  simp [readX, State.reset]

/-- Settles O47: the default configuration is admitted and the reset values are zeros. -/
theorem resetMeetsTheInvariant : Obligations.ResetMeetsTheInvariant := by
  unfold Obligations.ResetMeetsTheInvariant
  refine ⟨rfl, reset_mem_wf, fun n => ?_, fun n => ?_⟩
  · rw [readV_reset, BitVec.toNat_zero]
    exact Nat.two_pow_pos _
  · rw [readK_reset, BitVec.toNat_zero]
    exact Nat.two_pow_pos _

/-- Settles O51: the fields of the reset state. -/
theorem resetValues : Obligations.ResetValues := by
  unfold Obligations.ResetValues
  have hsupports : ∀ f, State.reset.cfg.supports f = true := fun f => by cases f <;> rfl
  exact ⟨readV_reset, readK_reset, readX_reset, rfl, fun _ => rfl, rfl, rfl, hsupports, ⟨rfl, rfl, nofun⟩,
    fun _ => rfl⟩

end Sys2Proof.Machine
end

section
/-! What the decoder can do with a list of bytes, said once (R74, R81): it stops at a head that no later byte can
change, or takes an instruction off the front, or has fewer than twelve bytes and needs another. -/

namespace Sys2Proof

/-- `take` reads a value of property `P` off the front of every list, in the number of bytes `size` gives it and
whatever stands after them, or the list has fewer than `bound` bytes. -/
def Takes {α : Type} (take : List Byte → Option (α × List Byte)) (size : α → Nat) (P : α → Prop) (bound : Nat) : Prop :=
  ∀ bs, (take bs = none ∧ bs.length < bound) ∨
    ∃ a head rest, P a ∧ bs = head ++ rest ∧ head.length = size a ∧ ∀ more, take (head ++ more) = some (a, more)

/-- What holds of a list with any bytes appended holds of the list. -/
theorem of_append {α : Type} {read : List Byte → α} {bs : List Byte} {g : List Byte → α}
    (h : ∀ more, read (bs ++ more) = g more) : read bs = g [] := by
  simpa using h []

/-- A value built from one that is taken. -/
theorem Takes.map {α β : Type} {take : List Byte → Option (α × List Byte)} {size : α → Nat} {P : α → Prop} {bound : Nat}
    {size' : β → Nat} {Q : β → Prop} (h : Takes take size P bound) (g : α → β)
    (hg : ∀ a, P a → Q (g a) ∧ size' (g a) = size a) :
    Takes (fun bs => (take bs).map fun p => (g p.1, p.2)) size' Q bound := by
  intro bs
  rcases h bs with ⟨hnone, hlen⟩ | ⟨a, head, rest, hP, hbs, hhead, htake⟩
  · exact .inl ⟨by simp [hnone], hlen⟩
  · obtain ⟨hQ, hsize⟩ := hg a hP
    exact .inr ⟨g a, head, rest, hQ, hbs, hhead.trans hsize.symm, fun more => by simp [htake]⟩

/-- A reader may be told to have a larger bound. -/
theorem Takes.mono {α : Type} {take : List Byte → Option (α × List Byte)} {size : α → Nat} {P : α → Prop} {n m : Nat}
    (h : Takes take size P n) (hnm : n ≤ m) : Takes take size P m := fun bs =>
  (h bs).imp_left fun ⟨hnone, hlen⟩ => ⟨hnone, Nat.lt_of_lt_of_le hlen hnm⟩

/-- Four bytes make a 32-bit value. -/
theorem take32_takes : Takes take32 (fun _ => 4) (fun _ => True) 4 := by
  intro bs
  match bs with
  | [] | [_] | [_, _] | [_, _, _] => exact .inl ⟨rfl, by simp⟩
  | b0 :: b1 :: b2 :: b3 :: rest => exact .inr ⟨_, [b0, b1, b2, b3], rest, trivial, rfl, rfl, fun _ => rfl⟩

/-- One byte makes a `disp8`. -/
theorem takeDisp8_takes : Takes takeDisp8 Disp.size (fun d => d.present = true) 1 := by
  intro bs
  cases bs with
  | nil => exact .inl ⟨rfl, by simp⟩
  | cons b rest => exact .inr ⟨_, [b], rest, rfl, rfl, rfl, fun _ => rfl⟩

/-- The displacement is absent only under `mod = 00` (R66). -/
theorem takeDisp_takes (md : BitVec 2) :
    Takes (takeDisp md) Disp.size (fun d => md = 0b00#2 ∨ d.present = true) 4 := by
  by_cases h0 : md = 0b00#2
  · exact fun bs => .inr ⟨.absent, [], bs, .inl h0, rfl, rfl, fun _ => by simp [takeDisp, h0]⟩
  by_cases h1 : md = 0b01#2
  · have heq : takeDisp md = takeDisp8 := funext fun bs => by simp [takeDisp, h1]
    rw [heq]
    exact fun bs => (takeDisp8_takes.mono (by decide) bs).imp_right
      fun ⟨d, head, rest, hd, htake⟩ => ⟨d, head, rest, .inr hd, htake⟩
  · have heq : takeDisp md = fun bs => (take32 bs).map fun p => (.disp32 p.1, p.2) :=
      funext fun bs => by simp [takeDisp, h0, h1]
    rw [heq]
    exact take32_takes.map Disp.disp32 fun _ _ => ⟨.inr rfl, rfl⟩

/-- The low three bits of a register number made of a high bit and three low bits. -/
theorem greg_low (b : BitVec 1) (r : BitVec 3) : (b ++ r : GReg).extractLsb' 0 3 = r := by
  revert b r; decide

/-- A SIB byte and its displacement make a well-formed memory operand. -/
theorem takeSib_takes (x b : BitVec 1) (md : BitVec 2) :
    Takes (takeSib x b md) (fun m => (Src.mem m).extraSize) (fun m => m.wellFormed = true) 5 := by
  intro bs
  cases bs with
  | nil => exact .inl ⟨rfl, by simp⟩
  | cons sib bs =>
    have htail : Takes (fun bs => takeSib x b md (sib :: bs)) (fun m => (Src.mem m).extraSize - 1)
        (fun m => m.wellFormed = true ∧ 1 ≤ (Src.mem m).extraSize) 4 := by
      by_cases hbase : md = 0b00#2 ∧ sib.extractLsb' 0 3 = 0b101#3
      · simp only [takeSib, hbase, and_self, if_true]
        exact take32_takes.map (MemRef.sibNoBase _ _) fun _ _ => ⟨⟨rfl, by simp [Src.extraSize]⟩, rfl⟩
      · simp only [takeSib, hbase, if_false]
        refine (takeDisp_takes md).map (MemRef.sib _ _ _) fun d hd => ⟨⟨?_, by simp [Src.extraSize]⟩, by
          simp [Src.extraSize]⟩
        simp only [MemRef.wellFormed, greg_low, Bool.or_eq_true, bne_iff_ne]
        exact hd.imp_left fun hmd h => hbase ⟨hmd, h⟩
    rcases htail bs with ⟨hnone, hlen⟩ | ⟨m, head, rest, ⟨hw, hpos⟩, hbs, hhead, htake⟩
    · exact .inl ⟨hnone, by simp; omega⟩
    · dsimp only at hhead
      exact .inr ⟨m, sib :: head, rest, hw, by simp [hbs], by simp; omega, htake⟩

/-- A register number with bit 4 clear is one that VEX names. -/
theorem vexNames_append (b : BitVec 1) (r : BitVec 3) : VReg.vexNames (0#1 ++ b ++ r) = true := by
  revert b r; decide

/-- The ModRM:r/m operand is well formed; it is a register only under `mod = 11`, and one that VEX names when bit 4 is 0
(R65, R66, R69). -/
theorem takeSrc_takes (x4 x b : BitVec 1) (modrm : Byte) :
    Takes (takeSrc x4 x b modrm) Src.extraSize (fun src => src.wellFormed = true ∧
      (src.isMem = false → modrm.extractLsb' 6 2 = 0b11#2) ∧ (x4 = 0#1 → src.vexNames = true)) 5 := by
  by_cases hreg : modrm.extractLsb' 6 2 = 0b11#2
  · refine fun bs => .inr ⟨.reg (x4 ++ b ++ modrm.extractLsb' 0 3), [], bs, ⟨rfl, fun _ => hreg, ?_⟩, rfl, rfl,
      fun more => by simp [takeSrc, hreg]⟩
    rintro rfl
    exact vexNames_append ..
  by_cases hsib : modrm.extractLsb' 0 3 = 0b100#3
  · have heq : takeSrc x4 x b modrm = fun bs => (takeSib x b (modrm.extractLsb' 6 2) bs).map fun p => (.mem p.1, p.2) :=
      funext fun bs => by simp [takeSrc, hreg, hsib]
    rw [heq]
    exact (takeSib_takes x b _).map Src.mem fun m hm => ⟨⟨hm, nofun, fun _ => rfl⟩, rfl⟩
  by_cases hrip : modrm.extractLsb' 6 2 = 0b00#2 ∧ modrm.extractLsb' 0 3 = 0b101#3
  · have heq : takeSrc x4 x b modrm = fun bs => (take32 bs).map fun p => (.mem (.ripRel p.1), p.2) :=
      funext fun bs => by simp [takeSrc, hrip]
    rw [heq]
    exact (take32_takes.map (fun d => Src.mem (.ripRel d)) fun _ _ =>
      ⟨⟨rfl, nofun, fun _ => rfl⟩, rfl⟩).mono (by decide)
  · have heq : takeSrc x4 x b modrm = fun bs => (takeDisp (modrm.extractLsb' 6 2) bs).map fun p =>
        (.mem (.base (b ++ modrm.extractLsb' 0 3) p.1), p.2) :=
      funext fun bs => by simp [takeSrc, hreg, hsib, hrip]
    rw [heq]
    refine ((takeDisp_takes _).map (fun d => Src.mem (.base (b ++ modrm.extractLsb' 0 3) d)) fun d hd =>
      ⟨⟨?_, nofun, fun _ => rfl⟩, rfl⟩).mono (by decide)
    simp only [Src.wellFormed, MemRef.wellFormed, greg_low, Bool.and_eq_true, Bool.or_eq_true, bne_iff_ne]
    exact ⟨hsib, hd.imp_left fun hmd h => hrip ⟨hmd, h⟩⟩

/-- What a reader `read` does with `bs` when `k` bytes have been read before it. -/
inductive Verdict (c : Config) (read : List Byte → Decoded) (k : Nat) (bs : List Byte) : Prop
  /-- #UD, whatever follows. -/
  | ud (h : ∀ more, read (bs ++ more) = .ud)
  /-- A refusal, whatever follows. -/
  | refuse (why : DecodeRefusal) (h : ∀ more, read (bs ++ more) = .refuse why)
  /-- A well-formed instruction the flags allow, in exactly its own bytes. -/
  | instr (i : Instr) (head rest : List Byte) (hwf : i.wellFormed = true) (hsup : c.supports i.form = true)
      (hbs : bs = head ++ rest) (hlen : k + head.length = i.length) (h : ∀ more, read (head ++ more) = .instr i more)
  /-- Too few bytes. -/
  | truncated (h : read bs = .truncated) (hlen : k + bs.length < 12)

/-- A verdict on the bytes after the first is one on all of them. -/
theorem Verdict.cons {c : Config} {read : List Byte → Decoded} {k : Nat} {b : Byte} {bs : List Byte}
    (h : Verdict c (fun bs => read (b :: bs)) (k + 1) bs) : Verdict c read k (b :: bs) := by
  cases h with
  | ud h => exact .ud h
  | refuse why h => exact .refuse why h
  | instr i head rest hwf hsup hbs hlen h =>
    exact .instr i (b :: head) rest hwf hsup (by simp [hbs]) (by simp; omega) h
  | truncated h hlen => exact .truncated h (by simp; omega)

/-- A VEX head that passed the tests before ModRM (R70, R72). -/
structure VexHeadOk (b1 b2 op : Byte) : Prop where
  row    : vexMatches b1 b2 op = true
  length : b2.extractLsb' 2 1 ≠ 0#1
  vvvv   : b2.extractLsb' 3 4 = 0b1111#4

/-- A VEX head of the row with L = 0 or a used vvvv is #UD (R72). -/
theorem decodeVex_ud_of_fields {c : Config} {b1 b2 op : Byte} (hrow : vexMatches b1 b2 op = true)
    (h : b2.extractLsb' 2 1 = 0#1 ∨ b2.extractLsb' 3 4 ≠ 0b1111#4) (bs : List Byte) :
    decodeVex c (b1 :: b2 :: op :: bs) = .ud := by
  rcases h with hL | hvvvv
  · simp [decodeVex, hrow, hL]
  · simp [decodeVex, hrow, hvvvv]

/-- A VEX head of another row is refused (R75). -/
theorem decodeVex_refuse {c : Config} {b1 b2 op : Byte} (hrow : vexMatches b1 b2 op = false) (bs : List Byte) :
    decodeVex c (b1 :: b2 :: op :: bs) = .refuse .notVpermq := by
  simp [decodeVex, hrow]

/-- The VEX form, read off after its head (R81). -/
theorem decodeVex_of_takeSrc {c : Config} {b1 b2 op modrm imm8 : Byte} {bs rest : List Byte} {src : Src}
    (hhead : VexHeadOk b1 b2 op) (hsup : c.supports .vex256Imm = true)
    (hsrc : takeSrc 0#1 (~~~b1.extractLsb' 6 1) (~~~b1.extractLsb' 5 1) modrm bs = some (src, imm8 :: rest)) :
    decodeVex c (b1 :: b2 :: op :: modrm :: bs) =
      .instr (.vpermqVex256Imm (0#1 ++ ~~~b1.extractLsb' 7 1 ++ modrm.extractLsb' 3 3) src imm8) rest := by
  obtain ⟨hrow, hL, hvvvv⟩ := hhead
  simp [decodeVex, hrow, hL, hvvvv, hsup, hsrc]

/-- #UD of the VEX form on a part without AVX2 (R73), whatever the operand. -/
theorem decodeVex_ud_of_unsupported {c : Config} {b1 b2 op : Byte} (hhead : VexHeadOk b1 b2 op)
    (hsup : c.supports .vex256Imm = false) (modrm : Byte) (bs : List Byte) :
    decodeVex c (b1 :: b2 :: op :: modrm :: bs) = .ud := by
  obtain ⟨hrow, hL, hvvvv⟩ := hhead
  simp [decodeVex, hrow, hL, hvvvv, hsup]

/-- The verdict from ModRM on, of a VEX form. -/
theorem decodeVex_modrm_verdict {c : Config} {b1 b2 op : Byte} (hhead : VexHeadOk b1 b2 op) (bs : List Byte) :
    Verdict c (fun bs => decodeVex c (b1 :: b2 :: op :: bs)) 4 bs := by
  obtain ⟨hrow, hL, hvvvv⟩ := hhead
  cases bs with
  | nil => exact .truncated (by simp [decodeVex, hrow, hL, hvvvv]) (by simp)
  | cons modrm bs =>
    cases hsup : c.supports .vex256Imm with
    | false => exact .ud fun more => decodeVex_ud_of_unsupported ⟨hrow, hL, hvvvv⟩ hsup ..
    | true =>
      rcases takeSrc_takes 0#1 (~~~b1.extractLsb' 6 1) (~~~b1.extractLsb' 5 1) modrm bs with
        ⟨hnone, hlen⟩ | ⟨src, head, rest, ⟨hwf, _, hnames⟩, rfl, hhead, htake⟩
      · exact .truncated (by simp [decodeVex, hrow, hL, hvvvv, hsup, hnone]) (by simp; omega)
      · have hextra := extraSize_le src
        cases rest with
        | nil => exact .truncated (by simp [decodeVex, hrow, hL, hvvvv, hsup, of_append htake]) (by simp; omega)
        | cons imm8 rest =>
          refine .instr (.vpermqVex256Imm (0#1 ++ ~~~b1.extractLsb' 7 1 ++ modrm.extractLsb' 3 3) src imm8)
            (modrm :: (head ++ [imm8])) rest ?_ hsup (by simp) ?_ fun more =>
            decodeVex_of_takeSrc ⟨hrow, hL, hvvvv⟩ hsup (by simpa using htake (imm8 :: more))
          · simp [Instr.wellFormed, vexNames_append, hnames, hwf]
          · simp [Instr.length, Instr.src, instrLength, Form.isVex, Form.hasImm, hhead]
            omega

/-- The verdict on the bytes after C4. -/
theorem decodeVex_verdict (c : Config) (bs : List Byte) : Verdict c (decodeVex c) 1 bs := by
  match bs with
  | [] | [_] | [_, _] => exact .truncated rfl (by simp)
  | b1 :: b2 :: op :: bs =>
    cases hrow : vexMatches b1 b2 op with
    | false => exact .refuse .notVpermq fun more => decodeVex_refuse hrow _
    | true =>
      by_cases hL : b2.extractLsb' 2 1 = 0#1
      · exact .ud fun more => decodeVex_ud_of_fields hrow (.inl hL) _
      by_cases hvvvv : b2.extractLsb' 3 4 = 0b1111#4
      · exact (decodeVex_modrm_verdict ⟨hrow, hL, hvvvv⟩ bs).cons.cons.cons
      · exact .ud fun more => decodeVex_ud_of_fields hrow (.inr hvvvv) _

/-- An EVEX head that passed the tests before ModRM (R70, R72, R73): that of the immediate form (`imm`) or of the
vector form of a length. -/
structure EvexHeadOk (imm : Bool) (vl : VLen) (p0 p1 p2 op : Byte) : Prop where
  reserved : p0.extractLsb' 2 2 = 0b00#2 ∧ p1.extractLsb' 2 1 = 1#1
  row      : (evexImmMatches p0 p1 op || evexVecMatches p0 p1 op) = true
  form     : evexImmMatches p0 p1 op = imm
  length   : evexLength p2 = some vl
  vvvv     : (imm && !evexVvvvUnused p1 p2) = false
  masked   : evexZeroingWithoutMask p2 = false

/-- After such a head the decoder reads ModRM (R81). -/
theorem decodeEvex_of_head {c : Config} {imm : Bool} {vl : VLen} {p0 p1 p2 op : Byte}
    (h : EvexHeadOk imm vl p0 p1 p2 op) (bs : List Byte) :
    decodeEvex c (p0 :: p1 :: p2 :: op :: bs) = decodeEvexTail c imm vl p0 p1 p2 bs := by
  obtain ⟨⟨hr0, hr1⟩, hrow, rfl, hlen, hvvvv, hmasked⟩ := h
  simp [decodeEvex, hr0, hr1, hrow, hlen, hvvvv, hmasked]

/-- #UD of wrong reserved bits (R73), whatever follows. -/
theorem decodeEvex_ud_of_reserved {c : Config} {p0 p1 p2 op : Byte}
    (h : p0.extractLsb' 2 2 ≠ 0b00#2 ∨ p1.extractLsb' 2 1 ≠ 1#1) (bs : List Byte) :
    decodeEvex c (p0 :: p1 :: p2 :: op :: bs) = .ud := by
  simp [decodeEvex, h]

/-- #UD of a head of a VPERMQ EVEX form whose fields are illegal (R72, R73), whatever follows. -/
theorem decodeEvex_ud_of_fields {c : Config} {p0 p1 p2 op : Byte}
    (hrow : (evexImmMatches p0 p1 op || evexVecMatches p0 p1 op) = true)
    (h : evexLength p2 = none ∨ (evexImmMatches p0 p1 op && !evexVvvvUnused p1 p2) = true ∨
      evexZeroingWithoutMask p2 = true) (bs : List Byte) :
    decodeEvex c (p0 :: p1 :: p2 :: op :: bs) = .ud := by
  by_cases hreserved : p0.extractLsb' 2 2 = 0b00#2 ∧ p1.extractLsb' 2 1 = 1#1
  · rcases h with hlen | hvvvv | hmasked
    · simp [decodeEvex, hrow, hlen]
    · cases hlen : evexLength p2 <;> simp [decodeEvex, hrow, hlen, hvvvv]
    · cases hlen : evexLength p2 <;> simp [decodeEvex, hrow, hlen, hmasked]
  · exact decodeEvex_ud_of_reserved (not_and_or.1 hreserved) bs

/-- The refusal of a row of another instruction (R75), whatever follows. -/
theorem decodeEvex_refuse {c : Config} {p0 p1 p2 op : Byte}
    (hreserved : p0.extractLsb' 2 2 = 0b00#2 ∧ p1.extractLsb' 2 1 = 1#1)
    (hrow : (evexImmMatches p0 p1 op || evexVecMatches p0 p1 op) = false) (bs : List Byte) :
    decodeEvex c (p0 :: p1 :: p2 :: op :: bs) = .refuse .notVpermq := by
  simp [decodeEvex, hreserved, hrow]

/-- The record of an EVEX form (R69); a vector form has no immediate byte, an immediate form no index register. -/
def evexInstr (imm : Bool) (vl : VLen) (dst idx : VReg) (src : Src) (imm8 : Byte) (mask : KReg) (z b : Bool) : Instr :=
  if imm then immInstrOf vl dst src imm8 mask z b else vecInstrOf vl dst idx src mask z b

section evexInstr
variable (imm : Bool) (vl : VLen) (dst idx : VReg) (src : Src) (imm8 : Byte) (mask : KReg) (z b : Bool)

/-- Its form is that of R81. -/
theorem evexInstr_form : (evexInstr imm vl dst idx src imm8 mask z b).form = evexFormOf imm vl := by
  cases imm <;> cases vl <;> rfl

/-- Its operand fields decide whether it is well formed. -/
theorem evexInstr_wellFormed :
    (evexInstr imm vl dst idx src imm8 mask z b).wellFormed = evexFieldsOk src mask z b := by
  cases imm <;> cases vl <;> rfl

/-- Its length (R74). -/
theorem evexInstr_length :
    (evexInstr imm vl dst idx src imm8 mask z b).length = 6 + src.extraSize + imm.toNat := by
  cases imm <;> cases vl <;> rfl

end evexInstr

/-- Zeroing without a mask, in the fields of the record (R73). -/
theorem evexZeroingWithoutMask_eq (p2 : Byte) :
    evexZeroingWithoutMask p2 = (evexZeroing p2 && evexMask p2 == 0#3) := rfl

/-- A head passes that test when its zeroing comes with a mask. -/
theorem evexZeroingWithoutMask_eq_false_iff {p2 : Byte} :
    evexZeroingWithoutMask p2 = false ↔ (evexZeroing p2 = true → evexMask p2 ≠ 0#3) := by
  simp [evexZeroingWithoutMask_eq]

/-- The field checks of an EVEX record, spelled out (R73). -/
theorem evexFieldsOk_iff {src : Src} {mask : KReg} {z b : Bool} : evexFieldsOk src mask z b = true ↔
    src.wellFormed = true ∧ (b = true → src.isMem = true) ∧ (z = true → mask ≠ 0#3) := by
  cases z <;> cases b <;> simp [evexFieldsOk, and_assoc]

/-- The record the decoder builds from the bytes of an EVEX form. -/
def evexInstrOfBytes (imm : Bool) (vl : VLen) (p0 p1 p2 modrm : Byte) (src : Src) (imm8 : Byte) : Instr :=
  evexInstr imm vl (evexDst p0 modrm) (evexIdx p1 p2) src imm8 (evexMask p2) (evexZeroing p2) (evexBcst p2)

/-- An EVEX form, read off from ModRM on (R81). -/
theorem decodeEvexTail_of_takeSrc {c : Config} {imm : Bool} {vl : VLen} {p0 p1 p2 modrm imm8 : Byte}
    {bs rest : List Byte} {src : Src} (hbcst : ¬ (modrm.extractLsb' 6 2 = 0b11#2 ∧ evexBcst p2 = true))
    (hsup : c.supports (evexFormOf imm vl) = true)
    (hsrc : takeSrc (~~~p0.extractLsb' 6 1) (~~~p0.extractLsb' 6 1) (~~~p0.extractLsb' 5 1) modrm bs =
      some (src, if imm then imm8 :: rest else rest)) :
    decodeEvexTail c imm vl p0 p1 p2 (modrm :: bs) =
      .instr (evexInstrOfBytes imm vl p0 p1 p2 modrm src imm8) rest := by
  cases imm <;> simp_all [decodeEvexTail, evexInstrOfBytes, evexInstr]

/-- #UD of a form the part does not have (R73), whatever the operand. -/
theorem decodeEvexTail_ud_of_unsupported {c : Config} {imm : Bool} {vl : VLen}
    (hsup : c.supports (evexFormOf imm vl) = false) (p0 p1 p2 modrm : Byte) (bs : List Byte) :
    decodeEvexTail c imm vl p0 p1 p2 (modrm :: bs) = .ud := by
  simp [decodeEvexTail, hsup]

/-- #UD of a broadcast from a register (R73), whatever follows. -/
theorem decodeEvexTail_ud_of_broadcast {c : Config} {imm : Bool} {vl : VLen} {p0 p1 p2 modrm : Byte}
    (h : modrm.extractLsb' 6 2 = 0b11#2 ∧ evexBcst p2 = true) (bs : List Byte) :
    decodeEvexTail c imm vl p0 p1 p2 (modrm :: bs) = .ud := by
  simp [decodeEvexTail, h]

/-- The verdict from ModRM on, of an EVEX form with a legal head. -/
theorem decodeEvexTail_verdict (c : Config) (imm : Bool) (vl : VLen) (p0 p1 p2 : Byte)
    (hmasked : evexZeroingWithoutMask p2 = false) (bs : List Byte) :
    Verdict c (decodeEvexTail c imm vl p0 p1 p2) 5 bs := by
  cases bs with
  | nil => exact .truncated rfl (by simp)
  | cons modrm bs =>
    by_cases hbcst : modrm.extractLsb' 6 2 = 0b11#2 ∧ evexBcst p2 = true
    · exact .ud fun more => decodeEvexTail_ud_of_broadcast hbcst _
    cases hsup : c.supports (evexFormOf imm vl) with
    | false => exact .ud fun more => decodeEvexTail_ud_of_unsupported hsup ..
    | true =>
      rcases takeSrc_takes (~~~p0.extractLsb' 6 1) (~~~p0.extractLsb' 6 1) (~~~p0.extractLsb' 5 1) modrm bs with
        ⟨hnone, hlen⟩ | ⟨src, head, rest, ⟨hwf, hmem, _⟩, rfl, hhead, htake⟩
      · exact .truncated (by simp [decodeEvexTail, hbcst, hsup, hnone]) (by simp; omega)
      · have hextra := extraSize_le src
        have hfields : evexFieldsOk src (evexMask p2) (evexZeroing p2) (evexBcst p2) = true :=
          evexFieldsOk_iff.2 ⟨hwf, fun hb => by_contra fun hreg => hbcst ⟨hmem (Bool.eq_false_iff.2 hreg), hb⟩,
            evexZeroingWithoutMask_eq_false_iff.1 hmasked⟩
        have hinstr (imm8 : Byte) : (evexInstrOfBytes imm vl p0 p1 p2 modrm src imm8).wellFormed = true :=
          (evexInstr_wellFormed ..).trans hfields
        cases imm with
        | false =>
          refine .instr (evexInstrOfBytes false vl p0 p1 p2 modrm src 0#8) (modrm :: head) rest (hinstr _)
            ((evexInstr_form ..).symm ▸ hsup) rfl ?_ fun more => decodeEvexTail_of_takeSrc hbcst hsup (htake more)
          simp [evexInstrOfBytes, evexInstr_length, hhead]
          omega
        | true =>
          cases rest with
          | nil => exact .truncated (by simp [decodeEvexTail, hbcst, hsup, of_append htake]) (by simp; omega)
          | cons imm8 rest =>
            refine .instr (evexInstrOfBytes true vl p0 p1 p2 modrm src imm8) (modrm :: (head ++ [imm8])) rest
              (hinstr _) ((evexInstr_form ..).symm ▸ hsup) (by simp) ?_ fun more =>
              decodeEvexTail_of_takeSrc hbcst hsup (by simpa using htake (imm8 :: more))
            simp [evexInstrOfBytes, evexInstr_length, hhead]
            omega

/-- The head of a row of VPERMQ is legal, or #UD whatever follows. -/
theorem evexHead_cases (c : Config) {p0 p1 p2 op : Byte}
    (hrow : (evexImmMatches p0 p1 op || evexVecMatches p0 p1 op) = true) :
    (∃ imm vl, EvexHeadOk imm vl p0 p1 p2 op) ∨ ∀ bs, decodeEvex c (p0 :: p1 :: p2 :: op :: bs) = .ud := by
  by_cases hreserved : p0.extractLsb' 2 2 = 0b00#2 ∧ p1.extractLsb' 2 1 = 1#1
  · cases hlen : evexLength p2 with
    | none => exact .inr (decodeEvex_ud_of_fields hrow (.inl hlen))
    | some vl =>
      cases hvvvv : evexImmMatches p0 p1 op && !evexVvvvUnused p1 p2 with
      | true => exact .inr (decodeEvex_ud_of_fields hrow (.inr (.inl hvvvv)))
      | false =>
        cases hmasked : evexZeroingWithoutMask p2 with
        | true => exact .inr (decodeEvex_ud_of_fields hrow (.inr (.inr hmasked)))
        | false => exact .inl ⟨_, vl, hreserved, hrow, rfl, hlen, hvvvv, hmasked⟩
  · exact .inr (decodeEvex_ud_of_reserved (not_and_or.1 hreserved))

/-- The verdict on the bytes after 62. -/
theorem decodeEvex_verdict (c : Config) (bs : List Byte) : Verdict c (decodeEvex c) 1 bs := by
  match bs with
  | [] | [_] | [_, _] | [_, _, _] => exact .truncated rfl (by simp)
  | p0 :: p1 :: p2 :: op :: bs =>
    by_cases hreserved : p0.extractLsb' 2 2 = 0b00#2 ∧ p1.extractLsb' 2 1 = 1#1
    · cases hrow : evexImmMatches p0 p1 op || evexVecMatches p0 p1 op with
      | false => exact .refuse .notVpermq fun more => decodeEvex_refuse hreserved hrow _
      | true =>
        rcases evexHead_cases c hrow with ⟨imm, vl, hhead⟩ | hud
        · have htail := decodeEvexTail_verdict c imm vl p0 p1 p2 hhead.masked bs
          exact Verdict.cons (Verdict.cons (Verdict.cons (Verdict.cons
            (funext (decodeEvex_of_head hhead) ▸ htail))))
        · exact .ud fun more => hud _
    · exact .ud fun more => decodeEvex_ud_of_reserved (not_and_or.1 hreserved) _

/-- C4 begins a VEX form. -/
theorem decode_vex (c : Config) (bs : List Byte) : decode c (0xC4#8 :: bs) = decodeVex c bs := by
  simp [decode, isUdPrefix, isOverride]

/-- 62 begins an EVEX form. -/
theorem decode_evex (c : Config) (bs : List Byte) : decode c (0x62#8 :: bs) = decodeEvex c bs := by
  simp [decode, isUdPrefix, isOverride]

/-- LOCK, 66, F2, F3 or REX is judged with the byte after it (R73, R75). -/
theorem decode_udPrefix {b0 : Byte} (h : isUdPrefix b0 = true) (c : Config) (b1 : Byte) (bs : List Byte) :
    decode c (b0 :: b1 :: bs) = if isVectorEscape b1 then .ud else .refuse .notVpermq := by
  simp [decode, h]

/-- The verdict of the decoder on any bytes. -/
theorem decode_verdict (c : Config) (bs : List Byte) : Verdict c (decode c) 0 bs := by
  cases bs with
  | nil => exact .truncated rfl (by simp)
  | cons b0 bs =>
    cases hprefix : isUdPrefix b0 with
    | true =>
      cases bs with
      | nil => exact .truncated (by simp [decode, hprefix]) (by simp)
      | cons b1 bs =>
        cases hescape : isVectorEscape b1 with
        | true => exact .ud fun more => by simp [decode_udPrefix hprefix, hescape]
        | false => exact .refuse .notVpermq fun more => by simp [decode_udPrefix hprefix, hescape]
    | false =>
      cases hoverride : isOverride b0 with
      | true => exact .refuse .unmodelledPrefix fun more => by simp [decode, hprefix, hoverride]
      | false =>
        by_cases hvex : b0 = 0xC4#8
        · subst hvex
          exact Verdict.cons (funext (decode_vex c) ▸ decodeVex_verdict c bs)
        by_cases hevex : b0 = 0x62#8
        · subst hevex
          exact Verdict.cons (funext (decode_evex c) ▸ decodeEvex_verdict c bs)
        · exact .refuse .notVpermq fun more => by simp [decode, hprefix, hoverride, hvex, hevex]

/-- What decodes to an instruction begins with exactly that instruction's bytes, and they decode to it whatever
follows. -/
theorem decode_instr {c : Config} {bs rest : List Byte} {i : Instr} (h : decode c bs = .instr i rest) :
    i.wellFormed = true ∧ c.supports i.form = true ∧
      ∃ head, bs = head ++ rest ∧ head.length = i.length ∧ ∀ more, decode c (head ++ more) = .instr i more := by
  cases decode_verdict c bs with
  | ud hud => exact nomatch h.symm.trans (of_append hud)
  | refuse why hrefuse => exact nomatch h.symm.trans (of_append hrefuse)
  | truncated ht _ => exact nomatch h.symm.trans ht
  | instr j head rest' hwf hsup hbs hlen hinstr =>
    obtain ⟨rfl, rfl⟩ := Decoded.instr.inj ((hbs ▸ h).symm.trans (hinstr rest'))
    exact ⟨hwf, hsup, head, hbs, by omega, hinstr⟩

/-- Settles O3, from the decoder's verdict on an instruction. -/
theorem decodedInstructionsAreWellFormed : Obligations.DecodedInstructionsAreWellFormed := by
  unfold Obligations.DecodedInstructionsAreWellFormed
  intro c bs rest i h
  obtain ⟨hwf, hsup, head, hbs, hlen, _⟩ := decode_instr h
  exact ⟨hwf, hsup, (Machine.length_bounds i).1, (Machine.length_bounds i).2, head, hbs, hlen⟩

/-- #UD stays #UD when bytes follow. -/
theorem decode_ud_append {c : Config} {bs : List Byte} (h : decode c bs = .ud) (more : List Byte) :
    decode c (bs ++ more) = .ud := by
  cases decode_verdict c bs with
  | ud hud => exact hud more
  | refuse why hrefuse => exact nomatch h.symm.trans (of_append hrefuse)
  | truncated ht _ => exact nomatch h.symm.trans ht
  | instr j head rest _ _ hbs _ hinstr => exact nomatch (hbs ▸ h).symm.trans (hinstr rest)

/-- A refusal stays that refusal when bytes follow. -/
theorem decode_refuse_append {c : Config} {bs : List Byte} {why : DecodeRefusal} (h : decode c bs = .refuse why)
    (more : List Byte) : decode c (bs ++ more) = .refuse why := by
  cases decode_verdict c bs with
  | ud hud => exact nomatch h.symm.trans (of_append hud)
  | refuse why' hrefuse =>
    obtain rfl := Decoded.refuse.inj (h.symm.trans (of_append hrefuse))
    exact hrefuse more
  | truncated ht _ => exact nomatch h.symm.trans ht
  | instr j head rest _ _ hbs _ hinstr => exact nomatch (hbs ▸ h).symm.trans (hinstr rest)

/-- An instruction stays that instruction when bytes follow; they follow its rest. -/
theorem decode_instr_append {c : Config} {bs rest : List Byte} {i : Instr} (h : decode c bs = .instr i rest)
    (more : List Byte) : decode c (bs ++ more) = .instr i (rest ++ more) := by
  obtain ⟨_, _, head, rfl, _, hinstr⟩ := decode_instr h
  rw [List.append_assoc]
  exact hinstr (rest ++ more)

/-- Settles O4, verdict by verdict. -/
theorem verdictsIgnoreLaterBytes : Obligations.VerdictsIgnoreLaterBytes := by
  unfold Obligations.VerdictsIgnoreLaterBytes
  exact fun c bs more => ⟨fun h => decode_ud_append h more, fun _ h => decode_refuse_append h more,
    fun _ _ h => decode_instr_append h more⟩

/-- Settles O5: the decoder needs another byte only of fewer than twelve. -/
theorem twelveBytesDecide : Obligations.TwelveBytesDecide := by
  unfold Obligations.TwelveBytesDecide
  intro c bs hlong h
  cases decode_verdict c bs with
  | ud hud => exact nomatch h.symm.trans (of_append hud)
  | refuse why hrefuse => exact nomatch h.symm.trans (of_append hrefuse)
  | truncated _ hlen => omega
  | instr j head rest _ _ hbs _ hinstr => exact nomatch (hbs ▸ h).symm.trans (hinstr rest)

end Sys2Proof
end

section
/-! The encoder's bytes under the decoder: the fields of each head byte come back, and so does the instruction
(R63, R64, R69, R70). -/

namespace Sys2Proof

/-- The second byte of the encoder's VEX head. -/
def vexB1 (dst : VReg) (src : Src) : Byte := ~~~dst.extractLsb' 3 1 ++ ~~~src.xBit ++ ~~~src.bBit ++ 0b00011#5

/-- Its fields. -/
theorem vexB1_fields (dst : VReg) (src : Src) :
    (vexB1 dst src).extractLsb' 0 5 = 0b00011#5 ∧ ~~~(vexB1 dst src).extractLsb' 5 1 = src.bBit ∧
      ~~~(vexB1 dst src).extractLsb' 6 1 = src.xBit ∧ ~~~(vexB1 dst src).extractLsb' 7 1 = dst.extractLsb' 3 1 := by
  unfold vexB1
  generalize dst.extractLsb' 3 1 = r, src.xBit = x, src.bBit = b
  revert r x b; decide

/-- The encoder's VEX head is legal. -/
theorem vexHeadOk_encode (dst : VReg) (src : Src) : VexHeadOk (vexB1 dst src) 0xFD#8 0x00#8 where
  row := by simp [vexMatches, (vexB1_fields dst src).1]
  length := by decide
  vvvv := by decide

/-- A register VEX names is its low four bits. -/
theorem vreg_split_of_vexNames {n : VReg} (h : VReg.vexNames n = true) :
    0#1 ++ n.extractLsb' 3 1 ++ n.extractLsb' 0 3 = n := by
  revert n; decide

/-- A source register VEX names has bit 4 clear. -/
theorem xBit_of_vexNames {src : Src} (h : src.vexNames = true) (hreg : src.isMem = false) : 0#1 = src.xBit := by
  cases src with
  | reg n => exact (of_decide_eq_true h).symm
  | mem m => exact nomatch hreg

/-- The bytes of a VEX form. -/
theorem encode_vex (dst : VReg) (src : Src) (imm8 : Byte) :
    encode (.vpermqVex256Imm dst src imm8) =
      0xC4#8 :: vexB1 dst src :: 0xFD#8 :: 0x00#8 :: (encodeSrc (dst.extractLsb' 0 3) src ++ [imm8]) := rfl

/-- The VEX form decodes from its bytes. -/
theorem decode_encode_vex {c : Config} {dst : VReg} {src : Src} {imm8 : Byte}
    (hwf : (Instr.vpermqVex256Imm dst src imm8).wellFormed = true) (hsup : c.supports .vex256Imm = true)
    (rest : List Byte) :
    decode c (encode (.vpermqVex256Imm dst src imm8) ++ rest) = .instr (.vpermqVex256Imm dst src imm8) rest := by
  simp only [Instr.wellFormed, Bool.and_eq_true] at hwf
  obtain ⟨⟨hdst, hnames⟩, hsrcWf⟩ := hwf
  obtain ⟨tail, htail⟩ := encodeSrc_eq (dst.extractLsb' 0 3) src
  obtain ⟨_, hb, hx, hr⟩ := vexB1_fields dst src
  have hsrc := takeSrc_encodeSrc (rest := imm8 :: rest) hsrcWf (xBit_of_vexNames hnames) htail
  have h := decodeVex_of_takeSrc (vexHeadOk_encode dst src) hsup (hb.symm ▸ hx.symm ▸ hsrc)
  rw [hr, modrmOf_reg, vreg_split_of_vexNames hdst] at h
  simpa [encode_vex, htail, decode_vex] using h

/-- The map of an EVEX form (R70). -/
def evexMap (imm : Bool) : BitVec 2 := if imm then 0b11#2 else 0b10#2

/-- The opcode byte of an EVEX form (R70). -/
def evexOpcode (imm : Bool) : Byte := if imm then 0x00#8 else 0x36#8

/-- The second byte of the encoder's EVEX head. -/
def evexP0 (mm : BitVec 2) (dst : VReg) (src : Src) : Byte :=
  ~~~dst.extractLsb' 3 1 ++ ~~~src.xBit ++ ~~~src.bBit ++ ~~~dst.extractLsb' 4 1 ++ 0b00#2 ++ mm

/-- The third byte of the encoder's EVEX head. -/
def evexP1 (vvvv5 : VReg) : Byte := 1#1 ++ ~~~vvvv5.extractLsb' 0 4 ++ 1#1 ++ 0b01#2

/-- The fourth byte of the encoder's EVEX head. -/
def evexP2 (vl : VLen) (vvvv5 : VReg) (mask : KReg) (z b : Bool) : Byte :=
  boolBit z ++ vl.llBits ++ boolBit b ++ ~~~vvvv5.extractLsb' 4 1 ++ mask

/-- The fields of the second byte. -/
theorem evexP0_fields (mm : BitVec 2) (dst : VReg) (src : Src) :
    (evexP0 mm dst src).extractLsb' 0 2 = mm ∧ (evexP0 mm dst src).extractLsb' 2 2 = 0b00#2 ∧
      ~~~(evexP0 mm dst src).extractLsb' 4 1 = dst.extractLsb' 4 1 ∧
      ~~~(evexP0 mm dst src).extractLsb' 5 1 = src.bBit ∧ ~~~(evexP0 mm dst src).extractLsb' 6 1 = src.xBit ∧
      ~~~(evexP0 mm dst src).extractLsb' 7 1 = dst.extractLsb' 3 1 := by
  unfold evexP0
  generalize dst.extractLsb' 3 1 = r, dst.extractLsb' 4 1 = r', src.xBit = x, src.bBit = b
  revert mm r r' x b; decide

/-- The fields of the third byte. -/
theorem evexP1_fields (v : VReg) :
    (evexP1 v).extractLsb' 7 1 = 1#1 ∧ (evexP1 v).extractLsb' 0 2 = 0b01#2 ∧ (evexP1 v).extractLsb' 2 1 = 1#1 ∧
      ~~~(evexP1 v).extractLsb' 3 4 = v.extractLsb' 0 4 := by
  revert v; decide

/-- The fields of the fourth byte. -/
theorem evexP2_fields (vl : VLen) (v : VReg) (mask : KReg) (z b : Bool) :
    evexLength (evexP2 vl v mask z b) = some vl ∧ ~~~(evexP2 vl v mask z b).extractLsb' 3 1 = v.extractLsb' 4 1 ∧
      evexMask (evexP2 vl v mask z b) = mask ∧ evexZeroing (evexP2 vl v mask z b) = z ∧
      evexBcst (evexP2 vl v mask z b) = b := by
  unfold evexP2
  generalize v.extractLsb' 4 1 = v'
  cases vl <;> (revert v' mask z b; decide)

/-- A register number is its fifth bit and its low four. -/
theorem vreg_split_low (n : VReg) : n.extractLsb' 4 1 ++ n.extractLsb' 0 4 = n := by revert n; decide

/-- Register 0, stored inverted, is an unused vvvv (R72, R73). -/
theorem evexVvvvUnused_encode (vl : VLen) (mask : KReg) (z b : Bool) :
    evexVvvvUnused (evexP1 0#5) (evexP2 vl 0#5 mask z b) = true := by
  cases vl <;> (revert mask z b; decide)

/-- The encoder's EVEX head is legal: an immediate form names no index register, and zeroing comes with a mask. -/
theorem evexHeadOk_encode {imm : Bool} {vl : VLen} {dst idx : VReg} {src : Src} {mask : KReg} {z b : Bool}
    (hidx : imm = true → idx = 0#5) (hz : z = true → mask ≠ 0#3) :
    EvexHeadOk imm vl (evexP0 (evexMap imm) dst src) (evexP1 idx) (evexP2 vl idx mask z b) (evexOpcode imm) := by
  obtain ⟨hmap, hr0, _⟩ := evexP0_fields (evexMap imm) dst src
  obtain ⟨hw, hpp, hr1, _⟩ := evexP1_fields idx
  obtain ⟨hlen, _, hmask, hzero, _⟩ := evexP2_fields vl idx mask z b
  refine ⟨⟨hr0, hr1⟩, ?row, ?form, hlen, ?vvvv, ?masked⟩
  case row =>
    rw [evexImmMatches, evexVecMatches, hmap, hw, hpp]
    cases imm <;> rfl
  case form =>
    rw [evexImmMatches, hmap, hw, hpp]
    cases imm <;> rfl
  case vvvv =>
    cases imm with
    | false => rfl
    | true => rw [hidx rfl, evexVvvvUnused_encode]; rfl
  case masked =>
    rw [evexZeroingWithoutMask_eq_false_iff, hzero, hmask]
    exact hz

/-- The bytes of an EVEX form: its head, its opcode, its operand and, in an immediate form, the immediate. -/
def evexBytes (imm : Bool) (vl : VLen) (dst idx : VReg) (src : Src) (imm8 : Byte) (mask : KReg)
    (z b : Bool) : List Byte :=
  0x62#8 :: evexP0 (evexMap imm) dst src :: evexP1 idx :: evexP2 vl idx mask z b :: evexOpcode imm ::
    (encodeSrc (dst.extractLsb' 0 3) src ++ if imm then [imm8] else [])

/-- They are what the encoder writes. -/
theorem encode_evexInstr {imm : Bool} {idx : VReg} (hidx : imm = true → idx = 0#5) (vl : VLen) (dst : VReg) (src : Src)
    (imm8 : Byte) (mask : KReg) (z b : Bool) :
    encode (evexInstr imm vl dst idx src imm8 mask z b) = evexBytes imm vl dst idx src imm8 mask z b := by
  cases imm with
  | true => rw [hidx rfl]; cases vl <;> rfl
  | false => rw [evexBytes, if_neg (by decide), List.append_nil]; cases vl <;> rfl

/-- An EVEX form decodes from its bytes. -/
theorem decode_evexBytes {c : Config} {imm : Bool} {vl : VLen} {dst idx : VReg} {src : Src} {imm8 : Byte} {mask : KReg}
    {z b : Bool} (hidx : imm = true → idx = 0#5) (hfields : evexFieldsOk src mask z b = true)
    (hsup : c.supports (evexFormOf imm vl) = true) (rest : List Byte) :
    decode c (evexBytes imm vl dst idx src imm8 mask z b ++ rest) =
      .instr (evexInstr imm vl dst idx src imm8 mask z b) rest := by
  obtain ⟨hwf, hmem, hz⟩ := evexFieldsOk_iff.1 hfields
  obtain ⟨tail, htail⟩ := encodeSrc_eq (dst.extractLsb' 0 3) src
  obtain ⟨_, _, hr', hb, hx, hr⟩ := evexP0_fields (evexMap imm) dst src
  obtain ⟨_, _, _, hvvvv⟩ := evexP1_fields idx
  obtain ⟨_, hv', hmask, hzero, hbcst⟩ := evexP2_fields vl idx mask z b
  have hreg : ¬ ((modrmOf (dst.extractLsb' 0 3) src).extractLsb' 6 2 = 0b11#2 ∧
      evexBcst (evexP2 vl idx mask z b) = true) := by
    rw [modrmOf_mod, hbcst]
    rintro ⟨hsrc, hb⟩
    exact nomatch hsrc.symm.trans (hmem hb)
  have hsrc := takeSrc_encodeSrc (rest := if imm then imm8 :: rest else rest) hwf (fun _ => rfl) htail
  calc decode c (evexBytes imm vl dst idx src imm8 mask z b ++ rest)
      = decodeEvexTail c imm vl (evexP0 (evexMap imm) dst src) (evexP1 idx) (evexP2 vl idx mask z b)
          (modrmOf (dst.extractLsb' 0 3) src :: (tail ++ if imm then imm8 :: rest else rest)) := by
        rw [← decodeEvex_of_head (evexHeadOk_encode hidx hz), ← decode_evex]
        cases imm <;> simp [evexBytes, htail]
    _ = .instr (evexInstrOfBytes imm vl (evexP0 (evexMap imm) dst src) (evexP1 idx) (evexP2 vl idx mask z b)
          (modrmOf (dst.extractLsb' 0 3) src) src imm8) rest :=
        decodeEvexTail_of_takeSrc hreg hsup (hx.symm ▸ hb.symm ▸ hsrc)
    _ = .instr (evexInstr imm vl dst idx src imm8 mask z b) rest := by
        simp only [evexInstrOfBytes, evexDst, evexIdx, hr', hr, hvvvv, hv', hmask, hzero, hbcst, modrmOf_reg,
          vreg_split, vreg_split_low]

/-- Every instruction is the VEX form or an EVEX one. -/
theorem instr_cases (i : Instr) :
    (∃ dst src imm8, i = .vpermqVex256Imm dst src imm8) ∨
      ∃ imm vl dst idx src imm8 mask z b, (imm = true → idx = 0#5) ∧
        i = evexInstr imm vl dst idx src imm8 mask z b := by
  cases i with
  | vpermqVex256Imm dst src imm8 => exact .inl ⟨dst, src, imm8, rfl⟩
  | vpermqEvex256Imm dst src imm8 mask z b =>
    exact .inr ⟨true, .vl256, dst, 0, src, imm8, mask, z, b, fun _ => rfl, rfl⟩
  | vpermqEvex512Imm dst src imm8 mask z b =>
    exact .inr ⟨true, .vl512, dst, 0, src, imm8, mask, z, b, fun _ => rfl, rfl⟩
  | vpermqEvex256Vec dst idx src mask z b =>
    exact .inr ⟨false, .vl256, dst, idx, src, 0, mask, z, b, nofun, rfl⟩
  | vpermqEvex512Vec dst idx src mask z b =>
    exact .inr ⟨false, .vl512, dst, idx, src, 0, mask, z, b, nofun, rfl⟩

/-- Settles O2: the VEX form and the EVEX forms, each from its bytes. -/
theorem decodeOfEncodeIsTheInstruction : Obligations.DecodeOfEncodeIsTheInstruction := by
  unfold Obligations.DecodeOfEncodeIsTheInstruction
  intro c i rest hwf hsup
  rcases instr_cases i with ⟨dst, src, imm8, rfl⟩ | ⟨imm, vl, dst, idx, src, imm8, mask, z, b, hidx, rfl⟩
  · exact decode_encode_vex hwf hsup rest
  · rw [evexInstr_wellFormed] at hwf
    rw [evexInstr_form] at hsup
    rw [encode_evexInstr hidx]
    exact decode_evexBytes hidx hwf hsup rest

/-- The bytes of a well-formed instruction the part does not have are #UD, whatever follows (R73). -/
theorem decode_encode_ud {c : Config} {i : Instr} (hwf : i.wellFormed = true) (hsup : c.supports i.form = false) :
    decode c (encode i) = .ud := by
  rcases instr_cases i with ⟨dst, src, imm8, rfl⟩ | ⟨imm, vl, dst, idx, src, imm8, mask, z, b, hidx, rfl⟩
  · obtain ⟨tail, htail⟩ := encodeSrc_eq (dst.extractLsb' 0 3) src
    rw [encode_vex, decode_vex, htail]
    exact decodeVex_ud_of_unsupported (vexHeadOk_encode dst src) hsup ..
  · obtain ⟨tail, htail⟩ := encodeSrc_eq (dst.extractLsb' 0 3) src
    rw [evexInstr_wellFormed] at hwf
    rw [evexInstr_form] at hsup
    obtain ⟨_, _, hz⟩ := evexFieldsOk_iff.1 hwf
    rw [encode_evexInstr hidx, evexBytes, decode_evex, decodeEvex_of_head (evexHeadOk_encode hidx hz), htail]
    exact decodeEvexTail_ud_of_unsupported hsup ..

end Sys2Proof
end

section
/-! Fetch and launch: a machine that runs reads the bytes that stand at `pc`, up to the first it cannot (R74, R161). -/

namespace Sys2Proof.Machine

/-- A list of readable bytes is fetched first, and the fetch goes on after it. -/
theorem fetchFrom_readable {c : Config} {m : Memory} {a : Addr} {bs : List Byte} (k : Nat)
    (h : ∀ n (hn : n < bs.length), readable c (a + BitVec.ofNat 64 n) = none ∧
      readByte m (a + BitVec.ofNat 64 n) = bs[n]) :
    fetchFrom c m (bs.length + k) a =
      (bs ++ (fetchFrom c m k (a + BitVec.ofNat 64 bs.length)).1,
        (fetchFrom c m k (a + BitVec.ofNat 64 bs.length)).2) := by
  induction bs generalizing a with
  | nil => simp
  | cons b bs ih =>
    obtain ⟨hread, hbyte⟩ := h 0 (Nat.zero_lt_succ _)
    rw [BitVec.add_zero] at hread hbyte
    have hnext (n : Nat) : a + 1#64 + BitVec.ofNat 64 n = a + BitVec.ofNat 64 (n + 1) := by
      rw [Nat.add_comm n 1, BitVec.ofNat_add, BitVec.add_assoc]
    have hrest := ih (a := a + 1#64) fun n hn => by
      rw [hnext]
      exact h (n + 1) (Nat.succ_lt_succ hn)
    rw [List.length_cons, Nat.succ_add, fetchFrom, hread]
    simp only [hrest, hnext, hbyte, List.getElem_cons_zero, List.cons_append]

/-- The fetched bytes begin with any that stand readable at `pc`. -/
theorem fetchBytes_of_standsAtPc {s : State} {bs : List Byte} (h : StandsAtPc s bs) (hlen : bs.length ≤ 12) :
    ∃ more, fetchBytes s = bs ++ more := by
  obtain ⟨k, hk⟩ := Nat.le.dest hlen
  have hfetch := fetchFrom_readable k h
  rw [hk] at hfetch
  exact ⟨_, congrArg Prod.fst hfetch⟩

section decoded
variable {s : State} (hruns : s.Runs)
include hruns

/-- A machine that runs faults on what decodes to #UD. -/
theorem step_of_decode_ud (h : decode s.cfg (fetchBytes s) = .ud) : step s = .fault (.ud s.pc) := by
  simp [step, launchRefusal_eq_none_iff.2 hruns, h]

/-- A machine that runs refuses what the decoder refuses. -/
theorem step_of_decode_refuse {why : DecodeRefusal} (h : decode s.cfg (fetchBytes s) = .refuse why) :
    step s = .refused (refusalOf why) := by
  simp [step, launchRefusal_eq_none_iff.2 hruns, h]

/-- A machine that runs executes the instruction it decodes. -/
theorem step_of_decode_instr {i : Instr} {rest : List Byte} (h : decode s.cfg (fetchBytes s) = .instr i rest) :
    step s = exec i s := by
  simp [step, launchRefusal_eq_none_iff.2 hruns, h]

/-- A machine that runs faults on the byte the decoder needs and the fetch did not get. -/
theorem step_of_decode_truncated (h : decode s.cfg (fetchBytes s) = .truncated) : step s = fetchFault s := by
  simp [step, launchRefusal_eq_none_iff.2 hruns, h]

end decoded

section standing
variable {s : State} {bs : List Byte} (hruns : s.Runs) (hbytes : StandsAtPc s bs) (hlen : bs.length ≤ 12)
include hruns hbytes hlen

/-- Bytes at `pc` that decode to #UD fault, whatever follows them. -/
theorem step_ud_of_standsAtPc (h : decode s.cfg bs = .ud) : step s = .fault (.ud s.pc) := by
  obtain ⟨more, hmore⟩ := fetchBytes_of_standsAtPc hbytes hlen
  exact step_of_decode_ud hruns (hmore ▸ decode_ud_append h more)

/-- Bytes at `pc` that the decoder refuses are refused, whatever follows them. -/
theorem step_refused_of_standsAtPc {why : DecodeRefusal} (h : decode s.cfg bs = .refuse why) :
    step s = .refused (refusalOf why) := by
  obtain ⟨more, hmore⟩ := fetchBytes_of_standsAtPc hbytes hlen
  exact step_of_decode_refuse hruns (hmore ▸ decode_refuse_append h more)

/-- Bytes at `pc` that decode to an instruction run it, whatever follows them. -/
theorem step_exec_of_standsAtPc {i : Instr} {rest : List Byte} (h : decode s.cfg bs = .instr i rest) :
    step s = exec i s := by
  obtain ⟨more, hmore⟩ := fetchBytes_of_standsAtPc hbytes hlen
  exact step_of_decode_instr hruns (hmore ▸ decode_instr_append h more)

end standing

/-- The encoding is as long as the instruction, at most 12 bytes (R74). -/
theorem length_encode (i : Instr) : (encode i).length = i.length := by
  cases i with
  | vpermqVex256Imm => exact (Laws.EncodedLength.vpermqVex256Imm ..).1
  | vpermqEvex256Imm => exact (Laws.EncodedLength.vpermqEvex256Imm ..).1
  | vpermqEvex512Imm => exact (Laws.EncodedLength.vpermqEvex512Imm ..).1
  | vpermqEvex256Vec => exact (Laws.EncodedLength.vpermqEvex256Vec ..).1
  | vpermqEvex512Vec => exact (Laws.EncodedLength.vpermqEvex512Vec ..).1

/-- No encoding is longer than the bytes a fetch may look at. -/
theorem length_encode_le (i : Instr) : (encode i).length ≤ 12 := length_encode i ▸ (length_bounds i).2

/-- Settles O10: the bytes decode to their instruction whatever follows. -/
theorem stepRunsTheBytesAtPc : Obligations.StepRunsTheBytesAtPc := by
  unfold Obligations.StepRunsTheBytesAtPc
  intro s i hruns hwf hsup hbytes
  have hdecode := decodeOfEncodeIsTheInstruction s.cfg i [] hwf hsup
  rw [List.append_nil] at hdecode
  exact step_exec_of_standsAtPc hruns hbytes (length_encode_le i) hdecode

/-- Settles O9. -/
theorem stepRunsTheDecodedInstruction : Obligations.StepRunsTheDecodedInstruction := by
  unfold Obligations.StepRunsTheDecodedInstruction
  exact fun _ _ _ hruns => step_of_decode_instr hruns

/-- Settles O11: the decoder needs another byte of fewer than twelve only, so the fetch has met the unreadable one. -/
theorem fetchOfUnreadableByteFaults : Obligations.FetchOfUnreadableByteFaults := by
  unfold Obligations.FetchOfUnreadableByteFaults
  intro s bs f hruns hbytes hdecode hread
  have hshort : bs.length < 12 := Nat.lt_of_not_le fun hlong => twelveBytesDecide s.cfg bs hlong hdecode
  obtain ⟨k, hk⟩ := Nat.exists_eq_add_of_lt hshort
  have hstop : fetchFrom s.cfg s.mem (k + 1) (s.pc + BitVec.ofNat 64 bs.length) =
      ([], some (s.pc + BitVec.ofNat 64 bs.length, f)) := by
    rw [fetchFrom, hread]
  have hfetch := fetchFrom_readable (k + 1) hbytes
  rw [hstop, ← Nat.add_assoc, ← hk] at hfetch
  have hfetched : fetchBytes s = bs := by simpa [fetchBytes, maxLength] using congrArg Prod.fst hfetch
  rw [step_of_decode_truncated hruns (hfetched ▸ hdecode)]
  simp only [fetchFault, maxLength, hfetch, takeException_memory]

/-- Settles O12: the three launch premises in the order the model checks them. -/
theorem machineThatMayNotRunIsRefused : Obligations.MachineThatMayNotRunIsRefused := by
  unfold Obligations.MachineThatMayNotRunIsRefused
  refine fun s => ⟨fun hend => ?_, fun hend hmode => ?_, fun hend hmode hstate => ?_⟩
  · simp [step, launchRefusal, hend]
  · simp [step, launchRefusal, hend, hmode]
  · simp [step, launchRefusal, hend, hmode, hstate]

end Sys2Proof.Machine
end

section
/-! The encodings that are #UD or refused, from the bytes at `pc` up to the one that decides (R72, R73, R75, R79). -/

namespace Sys2Proof

/-- The VEX row, spelled out (R70). -/
theorem vexMatches_iff {b1 b2 op : Byte} : vexMatches b1 b2 op = true ↔
    b1.extractLsb' 0 5 = 0b00011#5 ∧ b2.extractLsb' 7 1 = 1#1 ∧ b2.extractLsb' 0 2 = 0b01#2 ∧ op = 0x00#8 := by
  simp [vexMatches, and_assoc]

/-- The EVEX rows, spelled out (R70). -/
theorem evexMatches_iff {p0 p1 op : Byte} : (evexImmMatches p0 p1 op || evexVecMatches p0 p1 op) = true ↔
    ((p0.extractLsb' 0 2 = 0b11#2 ∧ op = 0x00#8) ∨ (p0.extractLsb' 0 2 = 0b10#2 ∧ op = 0x36#8)) ∧
      p1.extractLsb' 7 1 = 1#1 ∧ p1.extractLsb' 0 2 = 0b01#2 := by
  simp only [evexImmMatches, evexVecMatches, Bool.or_eq_true, Bool.and_eq_true, beq_iff_eq]
  tauto

/-- Opcode 00 is that of the immediate rows (R70). -/
theorem evexImmMatches_of_opcode {p0 p1 : Byte}
    (h : (evexImmMatches p0 p1 0x00#8 || evexVecMatches p0 p1 0x00#8) = true) : evexImmMatches p0 p1 0x00#8 = true := by
  simpa [evexVecMatches] using h

/-- LOCK, 66, F2, F3 and the REX range, spelled out (R73). -/
theorem isUdPrefix_of_mem {b : Byte}
    (h : b = 0xF0#8 ∨ b = 0x66#8 ∨ b = 0xF2#8 ∨ b = 0xF3#8 ∨ (0x40 ≤ b.toNat ∧ b.toNat ≤ 0x4F)) :
    isUdPrefix b = true := by
  revert b; decide

/-- A broadcast from a register is #UD, whatever the rest of the head of an EVEX row (R73). -/
theorem decodeEvex_ud_of_broadcast {c : Config} {p0 p1 p2 op modrm : Byte}
    (hrow : (evexImmMatches p0 p1 op || evexVecMatches p0 p1 op) = true)
    (h : modrm.extractLsb' 6 2 = 0b11#2 ∧ evexBcst p2 = true) (bs : List Byte) :
    decodeEvex c (p0 :: p1 :: p2 :: op :: modrm :: bs) = .ud := by
  rcases evexHead_cases c hrow with ⟨imm, vl, hhead⟩ | hud
  · rw [decodeEvex_of_head hhead]
    exact decodeEvexTail_ud_of_broadcast h bs
  · exact hud _

/-- The length field 00 is EVEX.128 and 11 is reserved: neither is a length (R64, R71). -/
theorem evexLength_eq_none {p2 : Byte} (h : p2.extractLsb' 5 2 = 0b00#2 ∨ p2.extractLsb' 5 2 = 0b11#2) :
    evexLength p2 = none := by
  rcases h with h | h <;> simp [evexLength, h]

end Sys2Proof

namespace Sys2Proof.Machine

/-- Settles O6: the heads of the four rows of R72. -/
theorem sourceStatedIllegalEncodingsRaiseUd : Obligations.SourceStatedIllegalEncodingsRaiseUd := by
  unfold Obligations.SourceStatedIllegalEncodingsRaiseUd
  intro s hruns
  refine ⟨fun b1 b2 hbytes hmap hw hpp hfields => ?vex, fun p0 p1 p2 op hbytes hmap hw hpp hlen => ?length,
    fun p0 p1 p2 hbytes hmap hw hpp hvvvv => ?vvvv⟩
  case vex =>
    refine step_ud_of_standsAtPc hruns hbytes (by simp) ((decode_vex ..).trans ?_)
    exact decodeVex_ud_of_fields (vexMatches_iff.2 ⟨hmap, hw, hpp, rfl⟩) hfields []
  case length =>
    refine step_ud_of_standsAtPc hruns hbytes (by simp) ((decode_evex ..).trans ?_)
    exact decodeEvex_ud_of_fields (evexMatches_iff.2 ⟨hmap, hw, hpp⟩) (.inl (evexLength_eq_none (.inl hlen))) []
  case vvvv =>
    have hrow := evexMatches_iff.2 ⟨.inl ⟨hmap, rfl⟩, hw, hpp⟩
    refine step_ud_of_standsAtPc hruns hbytes (by simp) ((decode_evex ..).trans ?_)
    exact decodeEvex_ud_of_fields hrow (.inr (.inl (by
      simp [evexImmMatches_of_opcode hrow, evexVvvvUnused, hvvvv]))) []

/-- Settles O7: the rows of R73 up to ModRM. -/
theorem furtherIllegalEncodingsRaiseUd : Obligations.FurtherIllegalEncodingsRaiseUd := by
  unfold Obligations.FurtherIllegalEncodingsRaiseUd
  intro s hruns
  refine ⟨fun p0 p1 p2 op hbytes hreserved => ?reserved, fun p0 p1 p2 op hbytes hmap hw hpp hfields => ?fields,
    fun p0 p1 p2 op modrm hbytes hmap hw hpp hmod hb => ?broadcast, fun b0 b1 hbytes hprefix hescape => ?legacy⟩
  case reserved =>
    refine step_ud_of_standsAtPc hruns hbytes (by simp) ((decode_evex ..).trans ?_)
    exact decodeEvex_ud_of_reserved hreserved []
  case fields =>
    have hrow := evexMatches_iff.2 ⟨hmap, hw, hpp⟩
    refine step_ud_of_standsAtPc hruns hbytes (by simp) ((decode_evex ..).trans ?_)
    refine decodeEvex_ud_of_fields hrow ?_ []
    rcases hfields with hlen | ⟨hz, hmask⟩ | ⟨rfl, hv'⟩
    · exact .inl (evexLength_eq_none (.inr hlen))
    · exact .inr (.inr (by simp [evexZeroingWithoutMask, hz, hmask]))
    · exact .inr (.inl (by simp [evexImmMatches_of_opcode hrow, evexVvvvUnused, hv']))
  case broadcast =>
    refine step_ud_of_standsAtPc hruns hbytes (by simp) ((decode_evex ..).trans ?_)
    exact decodeEvex_ud_of_broadcast (evexMatches_iff.2 ⟨hmap, hw, hpp⟩) ⟨hmod, by simp [evexBcst, hb]⟩ []
  case legacy =>
    refine step_ud_of_standsAtPc hruns hbytes (by simp) ?_
    rw [decode_udPrefix (isUdPrefix_of_mem hprefix)]
    rcases hescape with rfl | rfl <;> rfl

/-- Settles O8: the first byte decides, or the head up to the opcode. -/
theorem foreignBytesAreRefused : Obligations.ForeignBytesAreRefused := by
  unfold Obligations.ForeignBytesAreRefused
  intro s hruns
  refine ⟨fun b0 hbytes hmem => ?override, fun b0 hbytes hmem hrex => ?first,
    fun b0 b1 hbytes hprefix hvex hevex => ?legacy, fun b1 b2 op hbytes h => ?vex,
    fun p0 p1 p2 op hbytes hr0 hr1 h => ?evex⟩
  case override =>
    refine step_refused_of_standsAtPc hruns hbytes (by simp) (why := .unmodelledPrefix) ?_
    simp only [List.mem_cons, List.not_mem_nil, or_false] at hmem
    rcases hmem with rfl | rfl | rfl | rfl | rfl | rfl | rfl <;> rfl
  case first =>
    refine step_refused_of_standsAtPc hruns hbytes (by simp) (why := .notVpermq) ?_
    simp only [List.mem_cons, List.not_mem_nil, or_false, not_or] at hmem
    simp_all [decode, isUdPrefix, isOverride]
  case legacy =>
    refine step_refused_of_standsAtPc hruns hbytes (by simp) (why := .notVpermq) ?_
    rw [decode_udPrefix (isUdPrefix_of_mem hprefix)]
    exact if_neg (by simpa [isVectorEscape] using ⟨hvex, hevex⟩)
  case vex =>
    have hrow : vexMatches b1 b2 op = false := by
      rw [Bool.eq_false_iff, ne_eq, vexMatches_iff]
      rintro ⟨hmap, hw, hpp, hop⟩
      simp [hmap, hw, hpp, hop] at h
    refine step_refused_of_standsAtPc hruns hbytes (by simp) (why := .notVpermq) ((decode_vex ..).trans ?_)
    exact decodeVex_refuse hrow []
  case evex =>
    have hrow : (evexImmMatches p0 p1 op || evexVecMatches p0 p1 op) = false := by
      rw [Bool.eq_false_iff, ne_eq, evexMatches_iff]
      rintro ⟨hmap, hw, hpp⟩
      rcases h with h | h | h
      · exact nomatch h.symm.trans hw
      · exact h hpp
      · exact h hmap
    refine step_refused_of_standsAtPc hruns hbytes (by simp) (why := .notVpermq) ((decode_evex ..).trans ?_)
    exact decodeEvex_refuse ⟨hr0, hr1⟩ hrow []

end Sys2Proof.Machine
end

section
/-! What one VPERMQ does: refusal, #UD, memory fault, completion, each with when (R144, R142, R42). -/

namespace Sys2Proof.Machine

/-- The model's test of a form asks for the flags of R142. -/
theorem cpuidFlags_of_supports {c : Config} {f : Form} (h : c.supports f = true) : c.cpuidFlags f = true := by
  cases f <;> simp_all [Config.supports, Config.cpuidFlags]

/-- A form with a clear flag is not supported (R142). -/
theorem supports_of_cpuidFlags_clear {c : Config} {f : Form} (h : c.cpuidFlags f = false) : c.supports f = false := by
  rw [Bool.eq_false_iff] at h ⊢
  exact fun hsup => h (cpuidFlags_of_supports hsup)

/-- In an admitted configuration, a form that is not supported has a flag clear (D2). -/
theorem cpuidFlags_of_unsupported {c : Config} {f : Form} (hwf : c.wf = true) (h : c.supports f = false) :
    c.cpuidFlags f = false := by
  simp only [Config.wf, Bool.and_eq_true, Bool.or_eq_true] at hwf
  rcases hwf.2 with hmaxvl | ⟨h512f, h512vl⟩
  · cases f <;> simp_all [Config.supports, Config.cpuidFlags]
  · cases f <;> simp_all [Config.supports, Config.cpuidFlags]

/-- An instruction whose form is not supported is #UD once the vector state is enabled. -/
theorem exec_ud_of_unsupported {i : Instr} {s : State} (hstate : s.cfg.stateEnabled = true)
    (hsup : s.cfg.supports i.form = false) : exec i s = .fault (.ud s.pc) := by
  simp [exec_eq_permuteInto, permuteInto, withForm, hstate, hsup]

/-- Settles O32: the decoder tests the flags after ModRM, and `exec` tests them again. -/
theorem clearFeatureFlagRaisesUd : Obligations.ClearFeatureFlagRaisesUd := by
  unfold Obligations.ClearFeatureFlagRaisesUd
  refine ⟨fun s i hruns hwf hbytes hflags => ?_, fun s i hstate hflags => ?_⟩
  · exact step_ud_of_standsAtPc hruns hbytes (length_encode_le i)
      (decode_encode_ud hwf (supports_of_cpuidFlags_clear hflags))
  · exact exec_ud_of_unsupported hstate (supports_of_cpuidFlags_clear hflags)

/-- Settles O31: the operand is fetched before the mask is read. -/
theorem unreadableOperandFaultsWhateverTheMask : Obligations.UnreadableOperandFaultsWhateverTheMask := by
  unfold Obligations.UnreadableOperandFaultsWhateverTheMask
  intro i s hform hread
  rw [exec_eq_permuteInto]
  rcases permuteInto_cases i.form i.dst i.src i.mask i.zeroing i.bcst (Instr.perm i s) s with
    ⟨_, hreadable, _⟩ | ⟨_, _, a, f, hlowest, hfault⟩ | ⟨_, hsup, _⟩ | ⟨hstate, _⟩
  · exact nomatch hread.symm.trans hreadable
  · exact ⟨a, f, hlowest, hfault⟩
  · exact nomatch hsup.symm.trans hform.2
  · exact nomatch hstate.symm.trans hform.1

/-- A memory fault names its address. -/
@[simp] theorem memoryFault_address (f : MemFault) (a pc : Addr) : (memoryFault f a pc).address = some a := by
  cases f <;> rfl

/-- A memory fault names the `pc` of its instruction. -/
@[simp] theorem memoryFault_pc (f : MemFault) (a pc : Addr) : (memoryFault f a pc).pc = pc := by
  cases f <;> rfl

/-- Settles O33, outcome by outcome of the one execution. -/
theorem outcomesOfOneInstruction : Obligations.OutcomesOfOneInstruction := by
  unfold Obligations.OutcomesOfOneInstruction
  intro i s
  rw [exec_eq_permuteInto]
  rcases permuteInto_cases i.form i.dst i.src i.mask i.zeroing i.bcst (Instr.perm i s) s with
    ⟨hform, hread, _, _, hnext⟩ | ⟨⟨hstate, hsup⟩, _, a, f, ⟨hmem, hread, _⟩, hfault⟩ | ⟨hstate, hsup, hud⟩ |
      ⟨hstate, hrefused⟩
  · rw [hnext]
    exact ⟨hform, cpuidFlags_of_supports hform.2, hread⟩
  · rw [hfault]
    simp only [memoryFault_address]
    exact ⟨hstate, memoryFault_pc f a s.pc, hsup, cpuidFlags_of_supports hsup, hmem, by simp [hread]⟩
  · rw [hud]
    exact ⟨hstate, rfl, hsup, fun hwf => cpuidFlags_of_unsupported hwf hsup⟩
  · rw [hrefused]
    exact ⟨rfl, hstate⟩

end Sys2Proof.Machine
end

section
/-! Memory as bytes and operands: reads, their faults, addresses, and a write read back (R7, R41, R42, R66). -/

namespace Sys2Proof.Machine

/-- Settles O20, from the bits of a read. -/
theorem operandsAreLittleEndian : Obligations.OperandsAreLittleEndian := by
  unfold Obligations.OperandsAreLittleEndian
  refine ⟨fun m a n k hk => ?_, fun m a j hj => qword_readBytes m a (by omega)⟩
  apply BitVec.eq_of_getLsbD_eq
  intro i hi
  have hdiv : (8 * k + i) / 8 = k := by omega
  have hmod : (8 * k + i) % 8 = i := by omega
  rw [BitVec.getLsbD_extractLsb', getLsbD_readBytes m a (by omega), hdiv, hmod, decide_eq_true hi, Bool.true_and]

/-- Settles O21, by the two things `MemRead` can do. -/
theorem memReadFaultsAtTheLowestByte : Obligations.MemReadFaultsAtTheLowestByte := by
  unfold Obligations.MemReadFaultsAtTheLowestByte
  refine fun s a n => ⟨memRead_of_readable, fun ⟨b, hb, hunreadable⟩ => ?_⟩
  rcases memRead_cases s a n with ⟨_, hreadable⟩ | ⟨c, f, hfault, hlowest⟩
  · exact absurd (hreadable b hb) hunreadable
  · exact ⟨c, f, hlowest, hfault⟩

/-- The range begins at its base and goes on at the next address. -/
theorem addrRange_succ (a : Addr) (n : Nat) : addrRange a (n + 1) = a :: addrRange (a + 1#64) n := by
  simp only [addrRange, List.range_succ_eq_map, List.map_cons, List.map_map, BitVec.add_zero]
  congr 2
  funext k
  simp only [Function.comp_apply, Nat.succ_eq_one_add, BitVec.ofNat_add, BitVec.add_assoc]

/-- A range that does not wrap onto itself does not come back to the address before it. -/
theorem not_mem_addrRange_succ (a : Addr) {n : Nat} (h : n + 1 ≤ 2 ^ 64) : a ∉ addrRange (a + 1#64) n := by
  simp only [addrRange, List.mem_map, List.mem_range, not_exists, not_and]
  intro k hk heq
  have hoffset : BitVec.ofNat 64 (1 + k) = 0#64 := by
    rw [BitVec.add_assoc, ← BitVec.ofNat_add] at heq
    simpa using heq
  have hzero := congrArg BitVec.toNat hoffset
  rw [BitVec.toNat_ofNat, Nat.mod_eq_of_lt (by omega)] at hzero
  simp at hzero

/-- A write leaves every byte outside its range alone. -/
theorem readByte_memWrite_of_not_mem {m : Memory} {a b : Addr} {n : Nat} (v : BitVec (8 * n)) (h : b ∉ addrRange a n) :
    readByte (memWrite m a n v) b = readByte m b := by
  induction n generalizing m a with
  | zero => rfl
  | succ n ih =>
    rw [addrRange_succ, List.mem_cons, not_or] at h
    rw [memWrite, ih _ h.2, readByte_writeByte_ne m _ h.1]

/-- A value is its high bytes and its low byte. -/
theorem high_append_low {n : Nat} (v : BitVec (8 * (n + 1))) : v.extractLsb' 8 (8 * n) ++ v.extractLsb' 0 8 = v := by
  apply BitVec.eq_of_getLsbD_eq
  intro i hi
  rw [BitVec.getLsbD_append]
  split
  · next hlow => simp [hlow]
  · next hhigh =>
    have hin : i - 8 < 8 * n := by omega
    have hpos : 8 + (i - 8) = i := by omega
    simp [hin, hpos]

/-- A write that does not wrap onto itself reads back. -/
theorem readBytes_memWrite {m : Memory} (a : Addr) {n : Nat} (v : BitVec (8 * n)) (hm : Memory.wf m = true)
    (hn : n ≤ 2 ^ 64) : readBytes (memWrite m a n v) a n = v := by
  induction n generalizing m a with
  | zero => exact BitVec.of_length_zero.symm
  | succ n ih =>
    have hlow : readByte (memWrite m a (n + 1) v) a = v.extractLsb' 0 8 := by
      rw [memWrite, readByte_memWrite_of_not_mem _ (not_mem_addrRange_succ a hn), readByte_writeByte_self a _ hm]
    have hhigh : readBytes (memWrite m a (n + 1) v) (a + 1#64) n = v.extractLsb' 8 (8 * n) :=
      ih _ _ (writeByte_wf a _ hm) (by omega)
    rw [readBytes, hlow, hhigh]
    exact high_append_low v

/-- Settles O23, byte by byte. -/
theorem memWriteThenMemRead : Obligations.MemWriteThenMemRead := by
  unfold Obligations.MemWriteThenMemRead
  exact fun m a n v hm hn => ⟨readBytes_memWrite a v hm hn, fun _ => readByte_memWrite_of_not_mem v⟩

/-- The index register scaled, as an integer (R66). -/
theorem indexValue_eq_ofInt (s : State) (ss : BitVec 2) (ix : GReg) :
    indexValue s ss ix = BitVec.ofInt 64 (if ix = 4#4 then 0 else (readX s ix).toNat * 2 ^ ss.toNat) := by
  unfold indexValue
  split
  · rfl
  · have hshift : ((readX s ix).toNat * 2 ^ ss.toNat : Int) = ((readX s ix).toNat <<< ss.toNat : Nat) := by
      simp [Nat.shiftLeft_eq]
    rw [hshift, BitVec.ofInt_natCast]
    exact BitVec.eq_of_toNat_eq (by simp)

/-- A register's value is its own residue. -/
theorem ofInt_toNat (a : Addr) : BitVec.ofInt 64 (a.toNat : Int) = a := by
  rw [BitVec.ofInt_natCast, BitVec.ofNat_toNat, BitVec.setWidth_eq]

/-- The scale of a one-byte displacement (R67). -/
theorem dispScale_eq (f : Form) (bcst : Bool) :
    (dispScale f bcst : Int) = (if f = .vex256Imm then 1 else if bcst then 8 else (f.vl.bits / 8 : Nat) : Int) := by
  cases f <;> cases bcst <;> rfl

/-- A scaled one-byte displacement, as an integer (R66, R67). -/
theorem dispValue_disp8_eq_ofInt (n : Nat) (d : BitVec 8) :
    dispValue n (.disp8 d) = BitVec.ofInt 64 (d.toInt * n) := by
  rw [BitVec.ofInt_mul, BitVec.ofInt_natCast]
  rfl

/-- Settles O22: each part of the sum is its integer's residue. -/
theorem effectiveAddressIsTheSum : Obligations.EffectiveAddressIsTheSum := by
  unfold Obligations.EffectiveAddressIsTheSum
  intro f bcst s b ix ss d8 d32 n index base
  have hbase : BitVec.ofInt 64 base = readX s b := ofInt_toNat _
  have hindex : BitVec.ofInt 64 index = indexValue s ss ix := (indexValue_eq_ofInt s ss ix).symm
  have hdisp8 : BitVec.ofInt 64 (d8.toInt * n) = dispValue (dispScale f bcst) (.disp8 d8) := by
    rw [dispValue_disp8_eq_ofInt, dispScale_eq]
  simp only [BitVec.ofInt_add, hbase, hindex, hdisp8, ofInt_toNat,
    BitVec.ofInt_natCast 64 (instrLength f (.mem (.ripRel d32)))]
  exact ⟨rfl, BitVec.add_zero _, rfl, rfl, BitVec.add_zero _, rfl, rfl, rfl⟩

end Sys2Proof.Machine
end

section
/-! The laws of the permutations (R100, R109, R123), from what each place of a permutation holds. -/

namespace Sys2Proof.Machine

/-- Settles O14. -/
theorem selectQIsTheElement : Obligations.SelectQIsTheElement := by
  unfold Obligations.SelectQIsTheElement
  exact ⟨fun x sel _ => selectQ_eq_qword x sel, fun x sel _ => selectQ_eq_qword x sel⟩

/-- A vector has whole halves of four elements. -/
theorem four_dvd_kl (vl : VLen) : 4 ∣ vl.kl := by cases vl <;> decide

/-- A place selected within the half of a place of the vector is a place of the vector. -/
theorem half_place_lt {vl : VLen} {i e : Nat} (hi : i < vl.kl) (he : e < 4) : 4 * (i / 4) + e < vl.kl := by
  obtain ⟨halves, hhalves⟩ := four_dvd_kl vl
  omega

/-- `nb` bits number the KL elements (R120). -/
theorem two_pow_indexBits (vl : VLen) : 2 ^ indexBits vl = vl.kl := by cases vl <;> rfl

/-- Every place of a vector permutation: its index element modulo KL numbers the data element (R120). -/
theorem qword_permVec_mod {vl : VLen} (x t : BitVec vl.bits) {j : Nat} (hj : j < vl.kl) :
    qword (permVec x t) j = qword t ((qword x j).toNat % vl.kl) := by
  rw [qword_permVec x t hj, BitVec.extractLsb'_toNat, Nat.shiftRight_zero, two_pow_indexBits]

/-- A number modulo KL is a place of the vector. -/
theorem mod_kl_lt (vl : VLen) (n : Nat) : n % vl.kl < vl.kl := Nat.mod_lt _ (by cases vl <;> decide)

/-- Settles O37: each place reads its index modulo KL. -/
theorem unreadIndexBitsDoNotMatter : Obligations.UnreadIndexBitsDoNotMatter := by
  unfold Obligations.UnreadIndexBitsDoNotMatter
  intro vl x y t h
  refine eq_of_qwords fun j hj => ?_
  rw [qword_permVec_mod x t hj, qword_permVec_mod y t hj, h j hj]

/-- Settles O43: place `j` takes element `j`. -/
theorem identityIndexIsIdentity : Obligations.IdentityIndexIsIdentity := by
  unfold Obligations.IdentityIndexIsIdentity
  intro vl x t h
  refine eq_of_qwords fun j hj => ?_
  rw [qword_permVec_mod x t hj, h j hj, Nat.mod_eq_of_lt hj]

/-- Settles O44: both permutations take the same element to each place. -/
theorem immediatePermutationsAreVectorPermutations : Obligations.ImmediatePermutationsAreVectorPermutations := by
  unfold Obligations.ImmediatePermutationsAreVectorPermutations
  intro vl x t imm8 h
  refine eq_of_qwords fun j hj => ?_
  rw [qword_permVec_mod x t hj, h j hj, Nat.mod_eq_of_lt (half_place_lt hj (immSelector_lt imm8 _)),
    qword_permImm imm8 t hj]

/-- Settles O45: the outer index selects an element of the inner one. -/
theorem indexVectorsCompose : Obligations.IndexVectorsCompose := by
  unfold Obligations.IndexVectorsCompose
  intro vl x y t
  refine eq_of_qwords fun j hj => ?_
  rw [qword_permVec_mod x _ hj, qword_permVec_mod y t (mod_kl_lt vl _), qword_permVec_mod _ t hj,
    qword_permVec_mod x y hj]

/-- Settles O40: the outer field selects a field of the inner immediate, within one half. -/
theorem immediatesCompose : Obligations.ImmediatesCompose := by
  unfold Obligations.ImmediatesCompose
  intro vl t p q r h
  refine eq_of_qwords fun i hi => ?_
  have hsel := immSelector_lt q (i % 4)
  have hhalf : (4 * (i / 4) + immSelector q (i % 4)) / 4 = i / 4 := by omega
  have hfield : (4 * (i / 4) + immSelector q (i % 4)) % 4 = immSelector q (i % 4) := by omega
  rw [qword_permImm q _ hi, qword_permImm p t (half_place_lt hi hsel), hhalf, hfield, qword_permImm r t hi,
    h _ (Nat.mod_lt _ (by decide))]

/-- The selectors of the four named immediates (R109). -/
theorem immSelector_named : ∀ j, j < 4 → immSelector 0xE4 j = j ∧ immSelector 0x1B j = 3 - j ∧
    immSelector 0x4E j = (j + 2) % 4 ∧ immSelector 0x00 j = 0 := by decide

/-- Settles O39, from the selectors of each. -/
theorem namedImmediatesPermuteAsStated : Obligations.NamedImmediatesPermuteAsStated := by
  unfold Obligations.NamedImmediatesPermuteAsStated
  intro vl t h j hh hj
  obtain ⟨_, hreverse, hswap, hreplicate⟩ := immSelector_named j hj
  have hplace (imm8 : BitVec 8) : qword (permImm imm8 t) (4 * h + j) = qword t (4 * h + immSelector imm8 j) :=
    permImmElements vl imm8 t h j (by rw [VLen.bits]; omega) hj
  refine ⟨eq_of_qwords fun i hi => ?_, ?_, ?_, ?_⟩
  · rw [qword_permImm _ t hi, (immSelector_named _ (Nat.mod_lt i (by decide))).1, Nat.div_add_mod]
  · rw [hplace, hreverse]
  · rw [hplace, hswap]
  · rw [hplace, hreplicate, Nat.add_zero]

/-- The selector of a place, among the four. -/
def selectorOf (imm8 : BitVec 8) (j : Fin 4) : Fin 4 := ⟨immSelector imm8 j, immSelector_lt imm8 j⟩

/-- Distinct selectors: no two places take the same element. -/
theorem selectorOf_injective_iff (imm8 : BitVec 8) : Function.Injective (selectorOf imm8) ↔
    ∀ j l, j < 4 → l < 4 → immSelector imm8 j = immSelector imm8 l → j = l :=
  ⟨fun h j l hj hl heq => congrArg Fin.val (@h ⟨j, hj⟩ ⟨l, hl⟩ (Fin.ext heq)),
    fun h j l heq => Fin.ext (h j l j.isLt l.isLt (congrArg Fin.val heq))⟩

/-- Place `j` of the low half takes the element its selector names. -/
theorem qword_permImm_low (imm8 : BitVec 8) (t : BitVec VLen.vl256.bits) (j : Fin 4) :
    qword (permImm imm8 t) j = qword t (selectorOf imm8 j) := by
  rw [qword_permImm imm8 t j.isLt, Nat.div_eq_of_lt j.isLt, Nat.mod_eq_of_lt j.isLt, Nat.mul_zero, Nat.zero_add]
  rfl

/-- Every element survives for all operands exactly when every element is selected: an operand with distinct elements
tells. -/
theorem selectorOf_surjective_iff (imm8 : BitVec 8) : Function.Surjective (selectorOf imm8) ↔
    ∀ (t : BitVec VLen.vl256.bits) (e : Nat), e < 4 → ∃ j, j < 4 ∧ qword (permImm imm8 t) j = qword t e := by
  constructor
  · intro h t e he
    obtain ⟨j, hj⟩ := h ⟨e, he⟩
    exact ⟨j, j.isLt, by rw [qword_permImm_low, hj]⟩
  · intro h e
    obtain ⟨j, hj, heq⟩ := h (ofQwords (fun i => BitVec.ofNat 64 i) 4) e e.isLt
    rw [qword_permImm_low imm8 _ ⟨j, hj⟩, qword_ofQwords _ (Fin.isLt _), qword_ofQwords _ e.isLt] at heq
    have hval := congrArg BitVec.toNat heq
    rw [BitVec.toNat_ofNat, BitVec.toNat_ofNat, Nat.mod_eq_of_lt (by omega), Nat.mod_eq_of_lt (by omega)] at hval
    exact ⟨⟨j, hj⟩, Fin.ext hval⟩

/-- Settles O42: on four places, injective is surjective. -/
theorem distinctSelectorsLoseNothing : Obligations.DistinctSelectorsLoseNothing := by
  unfold Obligations.DistinctSelectorsLoseNothing
  intro imm8
  rw [← selectorOf_injective_iff, Finite.injective_iff_surjective, selectorOf_surjective_iff]

end Sys2Proof.Machine
end

section
/-! Completion: an instruction whose form may run and whose operand is readable leaves its result (R104), and that
result depends on nothing else. -/

namespace Sys2Proof.Machine

/-- An instruction that may run and has its operand completes (R104). -/
theorem exec_of_fetchSrc {i : Instr} {s : State} {d : BitVec i.form.vl.bits} (hform : FormRuns i.form s)
    (hfetch : fetchSrc i.form i.src i.bcst s = .ok d) :
    exec i s = .next (advancePc (writeDest s i.dst
      (applyMask s i.mask i.zeroing (readVL i.form.vl s i.dst) (Instr.perm i s d))) i.length) := by
  rw [exec_eq_permuteInto, permuteInto, withForm_runs hform, hfetch]
  rfl

/-- A readable operand is fetched, element by element (R41, R101). -/
theorem fetchSrc_of_readable {f : Form} {src : Src} {bcst : Bool} {s : State} (h : sourceReadable f src bcst s = true) :
    ∃ d, fetchSrc f src bcst s = .ok d ∧ ∀ j, j < f.vl.kl → qword d j = sourceElement f src bcst s j := by
  obtain ⟨hreg, hfull, hbroadcast⟩ := fetchSrcElements
  cases src with
  | reg n => exact ⟨_, hreg f n bcst s, fun j hj => qword_low _ hj⟩
  | mem m =>
    cases bcst with
    | false => exact hfull f m s h
    | true => exact hbroadcast f m s h

/-- The element a register keeps under the mask is its own. -/
theorem qword_readVL {vl : VLen} (s : State) (n : VReg) {j : Nat} (hj : j < vl.kl) :
    qword (readVL vl s n) j = qword (readV s n) j := qword_low _ hj

/-- An instruction whose permutation sends element `takes j` to place `j` completes with that result. -/
theorem completesWith_of_perm {i : Instr} {takes : Nat → Nat} {s : State} (hform : FormRuns i.form s)
    (hread : sourceReadable i.form i.src i.bcst s = true)
    (hperm : ∀ d, ∀ j, j < i.form.vl.kl → qword (Instr.perm i s d) j = qword d (takes j))
    (htakes : ∀ j, j < i.form.vl.kl → takes j < i.form.vl.kl) : CompletesWith i takes s := by
  obtain ⟨d, hfetch, hd⟩ := fetchSrc_of_readable hread
  have hexec := exec_of_fetchSrc hform hfetch
  obtain ⟨hframe, hpc, hupper⟩ := completedInstructionsChangeOnlyDestinationAndPc i s _ hexec
  refine ⟨_, hexec, fun j hj => ?element, hupper, hpc, hframe⟩
  case element =>
    have hfits : 64 * i.form.vl.kl ≤ 512 := bits_le_container i.form.vl
    rw [readV_advancePc, readV_writeDest_self, qword_setWidth _ hfits hj, qword_applyMask _ _ _ _ _ hj, hperm d j hj,
      hd _ (htakes j hj), qword_readVL s _ hj]
    simp only [elementEnabled, Bool.or_eq_true, beq_iff_eq]

/-- The selector of a place, as an operation on the immediate (R68). -/
theorem immTakes_eq (imm8 : BitVec 8) (j : Nat) : immTakes imm8 j = 4 * (j / 4) + immSelector imm8 (j % 4) := by
  rw [immTakes, immSelector, BitVec.extractLsb'_toNat, BitVec.toNat_ushiftRight]

/-- An immediate permutation takes element `immTakes imm8 j` to place `j` (R105). -/
theorem qword_permImm_takes {vl : VLen} (imm8 : BitVec 8) (t : BitVec vl.bits) {j : Nat} (hj : j < vl.kl) :
    qword (permImm imm8 t) j = qword t (immTakes imm8 j) := by
  rw [qword_permImm imm8 t hj, immTakes_eq]

/-- That element is one of the vector's. -/
theorem immTakes_lt {vl : VLen} (imm8 : BitVec 8) {j : Nat} (hj : j < vl.kl) : immTakes imm8 j < vl.kl := by
  rw [immTakes_eq]
  exact half_place_lt hj (immSelector_lt imm8 _)

/-- A vector permutation takes element `vecTakes vl s idx j` to place `j` (R120). -/
theorem qword_permVec_takes {vl : VLen} (s : State) (idx : VReg) (t : BitVec vl.bits) {j : Nat} (hj : j < vl.kl) :
    qword (permVec (readVL vl s idx) t) j = qword t (vecTakes vl s idx j) := by
  rw [qword_permVec_mod _ t hj, qword_readVL s idx hj, vecTakes]

/-- Settles O25. -/
theorem vex256ImmCompletes : Obligations.Vex256ImmCompletes := by
  unfold Obligations.Vex256ImmCompletes
  exact fun s dst src imm8 hform hread => completesWith_of_perm (i := .vpermqVex256Imm dst src imm8) hform hread
    (fun d _ hj => qword_permImm_takes imm8 d hj) fun _ hj => immTakes_lt imm8 hj

/-- Settles O26. -/
theorem evex256ImmCompletes : Obligations.Evex256ImmCompletes := by
  unfold Obligations.Evex256ImmCompletes
  exact fun s dst src imm8 mask z b hform hread =>
    completesWith_of_perm (i := .vpermqEvex256Imm dst src imm8 mask z b) hform hread
      (fun d _ hj => qword_permImm_takes imm8 d hj) fun _ hj => immTakes_lt imm8 hj

/-- Settles O27. -/
theorem evex512ImmCompletes : Obligations.Evex512ImmCompletes := by
  unfold Obligations.Evex512ImmCompletes
  exact fun s dst src imm8 mask z b hform hread =>
    completesWith_of_perm (i := .vpermqEvex512Imm dst src imm8 mask z b) hform hread
      (fun d _ hj => qword_permImm_takes imm8 d hj) fun _ hj => immTakes_lt imm8 hj

/-- Settles O28. -/
theorem evex256VecCompletes : Obligations.Evex256VecCompletes := by
  unfold Obligations.Evex256VecCompletes
  exact fun s dst idx src mask z b hform hread =>
    completesWith_of_perm (i := .vpermqEvex256Vec dst idx src mask z b) hform hread
      (fun d _ hj => qword_permVec_takes s idx d hj) fun _ _ => mod_kl_lt .vl256 _

/-- Settles O29. -/
theorem evex512VecCompletes : Obligations.Evex512VecCompletes := by
  unfold Obligations.Evex512VecCompletes
  exact fun s dst idx src mask z b hform hread =>
    completesWith_of_perm (i := .vpermqEvex512Vec dst idx src mask z b) hform hread
      (fun d _ hj => qword_permVec_takes s idx d hj) fun _ _ => mod_kl_lt .vl512 _

/-- The operand does not depend on the opmask file. -/
theorem fetchSrc_k (f : Form) (src : Src) (bcst : Bool) (s : State) (k' : Vector (BitVec 64) 8) :
    fetchSrc f src bcst { s with k := k' } = fetchSrc f src bcst s := by
  cases src <;> rfl

/-- Nor does the permutation. -/
theorem perm_k (i : Instr) (s : State) (k' : Vector (BitVec 64) 8) :
    Instr.perm i { s with k := k' } = Instr.perm i s := by
  cases i <;> rfl

/-- Masking reads bits KL-1:0 of the named register only (R102). -/
theorem applyMask_congr {vl : VLen} {s s' : State} {mask : KReg} {zeroing : Bool} {old tmp : BitVec vl.bits}
    (h : ∀ j, j < vl.kl → (readK s' mask).getLsbD j = (readK s mask).getLsbD j) :
    applyMask s' mask zeroing old tmp = applyMask s mask zeroing old tmp := by
  refine eq_of_qwords fun j hj => ?_
  rw [qword_applyMask _ _ _ _ _ hj, qword_applyMask _ _ _ _ _ hj, elementEnabled, elementEnabled, h j hj]

/-- Settles O35: only the masking reads the opmask file. -/
theorem unreadMaskBitsDoNotMatter : Obligations.UnreadMaskBitsDoNotMatter := by
  unfold Obligations.UnreadMaskBitsDoNotMatter
  intro i s t k' hmask h
  obtain ⟨hform, _, d, hfetch, rfl⟩ := exec_next h
  have hform' : FormRuns i.form { s with k := k' } := hform
  have hfetch' := (fetchSrc_k i.form i.src i.bcst s k').trans hfetch
  rw [exec_of_fetchSrc hform' hfetch', perm_k, applyMask_congr hmask]
  rfl

/-- The operand depends on a vector file below VL only (R101). -/
theorem fetchSrc_v {f : Form} {s : State} {v' : Vector (BitVec 512) 32}
    (h : ∀ n, readVL f.vl { s with v := v' } n = readVL f.vl s n) (src : Src) (bcst : Bool) :
    fetchSrc f src bcst { s with v := v' } = fetchSrc f src bcst s := by
  cases src with
  | reg n => exact congrArg Except.ok (h n)
  | mem m => rfl

/-- So does the permutation (R120). -/
theorem perm_v {i : Instr} {s : State} {v' : Vector (BitVec 512) 32}
    (h : ∀ n, readVL i.form.vl { s with v := v' } n = readVL i.form.vl s n) :
    Instr.perm i { s with v := v' } = Instr.perm i s := by
  cases i with
  | vpermqVex256Imm => rfl
  | vpermqEvex256Imm => rfl
  | vpermqEvex512Imm => rfl
  | vpermqEvex256Vec _ idx => exact congrArg permVec (h idx)
  | vpermqEvex512Vec _ idx => exact congrArg permVec (h idx)

/-- Settles O36: operand, index and old destination are read below VL. -/
theorem registerBitsAboveVLDoNotMatter : Obligations.RegisterBitsAboveVLDoNotMatter := by
  unfold Obligations.RegisterBitsAboveVLDoNotMatter
  intro i s t v' hv h
  obtain ⟨hform, _, d, hfetch, rfl⟩ := exec_next h
  have hform' : FormRuns i.form { s with v := v' } := hform
  have hfetch' := (fetchSrc_v hv i.src i.bcst).trans hfetch
  refine ⟨_, exec_of_fetchSrc hform' hfetch', ?_⟩
  rw [readV_advancePc, readV_advancePc, readV_writeDest_self, readV_writeDest_self, perm_v hv, hv]
  rfl

/-- Without a writemask the result is the permutation's (R102). -/
theorem applyMask_zero {vl : VLen} (s : State) (zeroing : Bool) (old tmp : BitVec vl.bits) :
    applyMask s 0#3 zeroing old tmp = tmp :=
  eq_of_qwords fun _ hj => by rw [qword_applyMask _ _ _ _ _ hj, elementEnabled_zero, if_pos rfl]

/-- What an instruction without a writemask leaves. -/
theorem exec_next_unmasked {i : Instr} {s t : State} (h : exec i s = .next t) (hmask : i.mask = 0#3) :
    ∃ d, fetchSrc i.form i.src i.bcst s = .ok d ∧ t = advancePc (writeDest s i.dst (Instr.perm i s d)) i.length := by
  obtain ⟨_, _, d, hfetch, ht⟩ := exec_next h
  rw [hmask, applyMask_zero] at ht
  exact ⟨d, hfetch, ht⟩

/-- Settles O38: the same operand, the same permutation and no mask. -/
theorem vex256AndEvex256ImmAgree : Obligations.Vex256AndEvex256ImmAgree := by
  unfold Obligations.Vex256AndEvex256ImmAgree
  intro s t u dst src src' imm8 z hsame ht hu
  obtain ⟨d, hfetch, rfl⟩ := exec_next_unmasked ht rfl
  obtain ⟨d', hfetch', rfl⟩ := exec_next_unmasked hu rfl
  have hd : d = d' := Except.ok.inj ((hfetch.symm.trans hsame).trans hfetch')
  subst hd
  rfl

/-- Two permutations that agree on the operand give one outcome. -/
theorem permuteInto_congr {f : Form} {dst : VReg} {src : Src} {mask : KReg} {z b : Bool}
    {perm perm' : BitVec f.vl.bits → BitVec f.vl.bits} {s : State}
    (h : ∀ d, fetchSrc f src b s = .ok d → perm d = perm' d) :
    permuteInto f dst src mask z b perm s = permuteInto f dst src mask z b perm' s := by
  unfold permuteInto
  cases hfetch : fetchSrc f src b s with
  | error e => rfl
  | ok d => simp only [permuteFetched, h d hfetch]

/-- A vector of one element repeated is its own immediate permutation. -/
theorem permImm_repeated {vl : VLen} (imm8 : BitVec 8) (e : Qword) :
    permImm (vl := vl) imm8 (ofQwords (fun _ => e) vl.kl) = ofQwords (fun _ => e) vl.kl := by
  refine eq_of_qwords fun j hj => ?_
  rw [qword_permImm_takes imm8 _ hj, qword_ofQwords _ (immTakes_lt imm8 hj), qword_ofQwords _ hj]

/-- A broadcast operand is one element repeated (R45). -/
theorem fetchSrc_broadcast_repeated {f : Form} {m : MemRef} {s : State} {d : BitVec f.vl.bits}
    (h : fetchSrc f (.mem m) true s = .ok d) : ∃ e, d = ofQwords (fun _ => e) f.vl.kl := by
  rcases fetchSrc_cases f (.mem m) true s with ⟨_, hread⟩ | ⟨_, _, _, herror, _⟩
  · exact ⟨_, Except.ok.inj (h.symm.trans (fetchSrc_mem_broadcast hread))⟩
  · exact nomatch h.symm.trans herror

/-- A broadcast operand is permuted to itself by every immediate. -/
theorem permuteInto_broadcast_congr {f : Form} {dst : VReg} {m : MemRef} {mask : KReg} {z : Bool} (p q : BitVec 8)
    {s : State} : permuteInto f dst (.mem m) mask z true (permImm p) s =
      permuteInto f dst (.mem m) mask z true (permImm q) s :=
  permuteInto_congr fun d hfetch => by
    obtain ⟨e, rfl⟩ := fetchSrc_broadcast_repeated hfetch
    rw [permImm_repeated, permImm_repeated]

/-- Settles O41. -/
theorem broadcastIgnoresTheImmediate : Obligations.BroadcastIgnoresTheImmediate := by
  unfold Obligations.BroadcastIgnoresTheImmediate
  exact fun s dst m p q mask z => ⟨permuteInto_broadcast_congr p q, permuteInto_broadcast_congr p q⟩

/-- Settles O34: a register operand is read whole, whatever the broadcast flag. -/
theorem broadcastFromARegisterIsNotBroadcast : Obligations.BroadcastFromARegisterIsNotBroadcast := by
  unfold Obligations.BroadcastFromARegisterIsNotBroadcast
  exact fun s dst idx n imm8 mask z => ⟨rfl, rfl, rfl, rfl⟩

end Sys2Proof.Machine
end

section
/-! The statements at fixed words and fixed causes (R7, R141, R146; 95_test_vectors.md). -/

namespace Sys2Proof.Machine

/-- Settles O24, from the register laws. -/
theorem generalRegisterWriteThenRead : Obligations.GeneralRegisterWriteThenRead := by
  unfold Obligations.GeneralRegisterWriteThenRead
  exact fun s i v t => ⟨readX_writeX_self s i v, fun _ => readX_writeX_ne s v, rfl, rfl, rfl⟩

/-- Settles O1, by evaluating the decoder at the five words. -/
theorem sampleWordsDecodeToTheirRecords : Obligations.SampleWordsDecodeToTheirRecords := by
  unfold Obligations.SampleWordsDecodeToTheirRecords
  decide

/-- Settles O52, exception by exception. -/
theorem exceptionsNameTheirCause : Obligations.ExceptionsNameTheirCause := by
  unfold Obligations.ExceptionsNameTheirCause
  exact fun s code a => ⟨rfl, rfl, rfl, rfl, rfl, rfl, rfl, rfl, rfl, rfl, rfl, rfl⟩

end Sys2Proof.Machine
end
